-- ==== Sys2Proof/Word.lean ====
section
/-! DEFINITION. The widths of AES256-CORE: words, bytes and window addresses (00_scope.md R7, R8). -/

namespace Sys2Proof

/-- A word is 32 bits (R8): a register, a schedule word, a command word, the bus data. -/
abbrev Word := BitVec 32

/-- A byte is 8 bits (R8): an element of GF(2^8), a byte of a key or a block, the OPC and ARG fields. -/
abbrev Byte := BitVec 8

/-- A byte address of the register window: 12 bits (R101). -/
abbrev Addr := BitVec 12

end Sys2Proof
end

