-- ==== Sys2Proof/Syntax.lean ====
section
/-! DEFINITION. The 17 commands of 30_encoding.md R153, one constructor per row of spec/opcode_table.json. -/

namespace Sys2Proof

/-- A command. Operand registers are implicit in the opcode (R150); the only explicit operand is the 8-bit unsigned
ARG (R154), present on the commands whose legal set is not `0` alone. -/
inductive Instr where
  /-- NOP (R410). -/
  | nop
  /-- EXPAND L: construct the engine; `len` is the declared key length in bytes (R262). -/
  | expand (len : Byte)
  /-- ENCRYPT L: the cipher on STATE; `len` is the declared block length in bytes (R345). -/
  | encrypt (len : Byte)
  /-- ADDRK r: AddRoundKey with round key `r` (R340). -/
  | addrk (r : Byte)
  /-- SUBBYTES (R320). -/
  | subbytes
  /-- SHIFTROWS (R325). -/
  | shiftrows
  /-- MIXCOLUMNS (R332). -/
  | mixcolumns
  /-- ROUND r: one full round with round key `r` (R343). -/
  | round (r : Byte)
  /-- FINALROUND: round 14 (R344). -/
  | finalround
  /-- TRANSPOSE: exchange rows and columns of STATE (R302). -/
  | transpose
  /-- GFMUL: the GF(2^8) multiplier (R210). -/
  | gfmul
  /-- SBOX: the S-box on one byte (R211). -/
  | sbox
  /-- SUBWORD: the S-box on the four bytes of a word (R271). -/
  | subword
  /-- ROTWORD: rotate a word left by one byte (R270). -/
  | rotword
  /-- MIXCOL: the MixColumns combiner on one column (R212). -/
  | mixcol
  /-- PAD R: pad generation; `count` is the number of data bytes in the final block (R380). -/
  | pad (count : Byte)
  /-- UNPAD VLEN: padding validation; `vlen` is the window length (R385). -/
  | unpad (vlen : Byte)
  deriving DecidableEq, Repr

end Sys2Proof
end

