-- ==== Sys2Proof/WellFormed.lean ====
section
/-! DEFINITION. Which commands are legal: the "legal ARG" column of 30_encoding.md R153. -/

namespace Sys2Proof

/-- The operand lies in its opcode's legal set (R153). EXPAND and ENCRYPT admit every byte: a wrong length is the
command's own error, not an illegal word (D34). -/
def Instr.wellFormed : Instr → Bool
  | .nop => true
  | .expand _ => true
  | .encrypt _ => true
  | .addrk r => decide (r.toNat ≤ 14)
  | .subbytes => true
  | .shiftrows => true
  | .mixcolumns => true
  | .round r => decide (1 ≤ r.toNat ∧ r.toNat ≤ 13)
  | .finalround => true
  | .transpose => true
  | .gfmul => true
  | .sbox => true
  | .subword => true
  | .rotword => true
  | .mixcol => true
  | .pad count => decide (count.toNat ≤ 15)
  | .unpad vlen => decide (vlen.toNat ≤ 16)

end Sys2Proof
end

