-- ==== Sys2Proof/Decode.lean ====
section
/-! DEFINITION. The command word of 30_encoding.md: the opcode map of R153 as a table, the decoder of R152's first
three lines, and the encoder of R158. -/

namespace Sys2Proof

/-- One row of R153's table. -/
structure OpcodeRow where
  /-- The OPC value. -/
  opc : Byte
  /-- The least legal ARG. -/
  argMin : Nat
  /-- The greatest legal ARG. -/
  argMax : Nat
  /-- The command the row spells, given its ARG. -/
  command : Byte → Instr

/-- R153's table, row by row. -/
def opcodeTable : List OpcodeRow :=
  [ ⟨0x00, 0, 0, fun _ => .nop⟩,
    ⟨0x01, 0, 255, .expand⟩,
    ⟨0x02, 0, 255, .encrypt⟩,
    ⟨0x10, 0, 14, .addrk⟩,
    ⟨0x11, 0, 0, fun _ => .subbytes⟩,
    ⟨0x12, 0, 0, fun _ => .shiftrows⟩,
    ⟨0x13, 0, 0, fun _ => .mixcolumns⟩,
    ⟨0x14, 1, 13, .round⟩,
    ⟨0x15, 0, 0, fun _ => .finalround⟩,
    ⟨0x16, 0, 0, fun _ => .transpose⟩,
    ⟨0x20, 0, 0, fun _ => .gfmul⟩,
    ⟨0x21, 0, 0, fun _ => .sbox⟩,
    ⟨0x22, 0, 0, fun _ => .subword⟩,
    ⟨0x23, 0, 0, fun _ => .rotword⟩,
    ⟨0x24, 0, 0, fun _ => .mixcol⟩,
    ⟨0x30, 0, 15, .pad⟩,
    ⟨0x31, 0, 16, .unpad⟩ ]

/-- The OPC field, bits [7:0] (R150). -/
def opcField (c : Word) : Byte := c.extractLsb' 0 8

/-- The ARG field, bits [15:8] (R150, R154). -/
def argField (c : Word) : Byte := c.extractLsb' 8 8

/-- The RSV field, bits [31:16] (R150). -/
def rsvField (c : Word) : BitVec 16 := c.extractLsb' 16 16

/-- Why a word spells no command (R155). All three are ILLEGAL_COMMAND to the machine (R502). -/
inductive DecodeError where
  /-- `c[31:16] ≠ 0` (R151). -/
  | reservedBits
  /-- OPC is not in R153's table. -/
  | unknownOpcode
  /-- ARG lies outside the opcode's legal set. -/
  | illegalArg
  deriving DecidableEq, Repr

/-- The first three checks of R152, in its order: total on every word. -/
def decode (c : Word) : Except DecodeError Instr :=
  if rsvField c ≠ 0 then .error .reservedBits
  else
    match opcodeTable.find? (fun row => row.opc == opcField c) with
    | none => .error .unknownOpcode
    | some row =>
      if row.argMin ≤ (argField c).toNat ∧ (argField c).toNat ≤ row.argMax then
        .ok (row.command (argField c))
      else .error .illegalArg

/-- The OPC of a command (R153). -/
def Instr.opcode : Instr → Byte
  | .nop => 0x00
  | .expand _ => 0x01
  | .encrypt _ => 0x02
  | .addrk _ => 0x10
  | .subbytes => 0x11
  | .shiftrows => 0x12
  | .mixcolumns => 0x13
  | .round _ => 0x14
  | .finalround => 0x15
  | .transpose => 0x16
  | .gfmul => 0x20
  | .sbox => 0x21
  | .subword => 0x22
  | .rotword => 0x23
  | .mixcol => 0x24
  | .pad _ => 0x30
  | .unpad _ => 0x31

/-- The ARG of a command: its operand, or 0 where it has none (R153). -/
def Instr.arg : Instr → Byte
  | .expand a | .encrypt a | .addrk a | .round a | .pad a | .unpad a => a
  | .nop | .subbytes | .shiftrows | .mixcolumns | .finalround | .transpose => 0
  | .gfmul | .sbox | .subword | .rotword | .mixcol => 0

/-- `enc(opc, arg)` of R158: ARG above OPC, RSV zero. -/
def encodeFields (opc arg : Byte) : Word := (arg.setWidth 32 <<< 8) ||| opc.setWidth 32

/-- The word of a command (R158): every command is one word (R157). -/
def encode (i : Instr) : Word := encodeFields i.opcode i.arg

/-- The word the host's table numbering gives: bits above `nbits` are zero. -/
def tableWord (nbits w : Nat) : Nat := w % 2 ^ nbits

/-- The command the decoder reads from a table row's word. A number of more than 32 bits is no command word (R157). -/
def decodeTableWord (nbits w : Nat) : Option Instr :=
  if tableWord nbits w < 2 ^ 32 then (decode (BitVec.ofNat 32 (tableWord nbits w))).toOption else none

end Sys2Proof
end

