-- ==== Sys2Proof/Config.lean ====
section
/-! DEFINITION. What a platform or an implementation fixes and the spec leaves OPEN (R7): two constants without a value. -/

namespace Sys2Proof

/-- Which 4 KiB frame of the system's address space holds the window. OPEN (R109, D31); log 5. -/
opaque Config.coreFrame : Nat

/-- `CORE_BASE`, the system address of offset 0: a multiple of 0x1000 (R109). -/
def Config.coreBase : Nat := Config.coreFrame * 0x1000

/-- How many cycles beyond the first the bus holds a CMD write with this opcode. OPEN (R611, D15); log 5. -/
opaque Config.extraCycles : Byte → Nat

/-- `CMD_LATENCY(opc)`: finite and at least 1 (R611). No rule and no definition of the machine depends on it. -/
def Config.cmdLatency (opc : Byte) : Nat := Config.extraCycles opc + 1

end Sys2Proof
end

