-- ==== Sys2Proof/Machine/State.lean ====
section
/-! DEFINITION. The state of AES256-CORE (10_state.md R50) with the bus port and reset input it is driven through, as plain
data; the reasons a step stops; the state after reset (70_reset_and_hazards.md R600). -/

namespace Sys2Proof.Machine

/-- One access of the host (R102): a bus read or a bus write of `size` bytes at a window address. Only `size = 4` at an
aligned, decoded address is defined; the rest are bus errors (R105). -/
inductive BusAccess where
  /-- `MemRead(addr, size)` (R103). -/
  | read (addr : Addr) (size : Nat)
  /-- `MemWrite(addr, size, data)` (R104). -/
  | write (addr : Addr) (size : Nat) (data : Word)
  deriving DecidableEq, Repr

/-- What the outside world does to the block, one transition each (R100, R600; log 1, log 4). -/
inductive HostEvent where
  /-- The bus delivers an access (R110). -/
  | access (a : BusAccess)
  /-- The reset input goes active (R600, R601). -/
  | assertReset
  /-- The reset input goes inactive (R600). -/
  | releaseReset
  deriving DecidableEq, Repr

/-- The slave's answer to one access. -/
inductive Response where
  /-- A read's data (R103). -/
  | data (v : Word)
  /-- A write is complete, with the whole command if it was a write to CMD (R610). -/
  | done
  /-- The error response (R105). -/
  | busError
  deriving DecidableEq, Repr

/-- The outcome of a command (60_exceptions.md R500). -/
inductive ResultCode where
  | ok
  | illegalCommand
  | invalidKeyLength
  | invalidBlockLength
  | invalidPadding
  | keyNotLoaded
  deriving DecidableEq, Repr

/-- Why the machine stops with a fault. -/
inductive Fault where
  /-- Raised by a step whose access is a bus error: wrong size, misaligned, undecoded, or a write to a read-only register.
  R105: "A model treats a bus error as a fault of the host's access." Safe: the block itself goes on unchanged, and
  `State.afterBusError` is the state it goes on from (log 2). -/
  | busError (a : BusAccess)
  deriving DecidableEq, Repr

/-- Why the model has no step. -/
inductive Refusal where
  /-- Raised by an arm of `exec` that has no meaning yet. Safe. No arm raises it in this model. -/
  | notModelled (mnemonic : String)
  /-- Raised by a step whose access comes while reset is asserted. R601: "What response the bus gives such an access is
  left to the platform, and a host must not make one." Safe (log 4). -/
  | accessDuringReset (a : BusAccess)
  deriving DecidableEq, Repr

/-- The state of the machine: R50's table, field by field, then three fields of the model's own. -/
structure State where
  /-- KEY0..KEY7: the staging copy of the key (R53). -/
  key : Vector Word 8
  /-- STATE0..STATE3: the 16-byte State, one column a word (R54). -/
  state : Vector Word 4
  /-- AUX_A: first scalar operand (R50). -/
  auxA : Word
  /-- AUX_B: second scalar operand (R50). -/
  auxB : Word
  /-- AUX_R: scalar result (R50). -/
  auxR : Word
  /-- W[0..59]: the round-key schedule (R56). -/
  w : Vector Word 60
  /-- STATUS.KV: an engine is constructed (R58). -/
  kv : Bool
  /-- STATUS.PV: PADINFO holds a successful UNPAD result (R59). -/
  pv : Bool
  /-- STATUS.ERR: the sticky error bit (R505). -/
  err : Bool
  /-- STATUS.LASTCODE: the code of the most recent command (R500, R505). -/
  lastCode : BitVec 4
  /-- CFG.ERRIE: the interrupt enable (R63). -/
  errie : Bool
  /-- PADINFO.N: the padding count UNPAD found (R64). -/
  padN : BitVec 5
  /-- PADINFO.KEEP: the bytes of the window that are data (R64). -/
  padKeep : BitVec 5
  /-- The model's own: the level of the reset input (R600; log 4). -/
  resetAsserted : Bool
  /-- The model's own: what the outside world does next, in bus order (R110; log 1). -/
  pending : List HostEvent
  /-- The model's own: the response to the most recent access, none since reset (log 3). -/
  response : Option Response
  deriving DecidableEq, Repr

/-- The machine right after reset is released (R600): every element is 0, and the host has done nothing yet. -/
def State.reset : State where
  key := Vector.replicate 8 0
  state := Vector.replicate 4 0
  auxA := 0
  auxB := 0
  auxR := 0
  w := Vector.replicate 60 0
  kv := false
  pv := false
  err := false
  lastCode := 0
  errie := false
  padN := 0
  padKeep := 0
  resetAsserted := false
  pending := []
  response := none

/-- What an instruction's meaning answers with. -/
abbrev Result := Host.Outcome State Fault Refusal

end Sys2Proof.Machine
end

