-- ==== Sys2Proof/Machine/AddressMap.lean ====
section
/-! DEFINITION. The register map of 20_memory.md R108, and where the window sits in the system (R109). -/

namespace Sys2Proof.Machine

/-- A register of the window (R108). -/
inductive Reg where
  | cmd
  | status
  | cfg
  | padInfo
  | key (j : Fin 8)
  | state (j : Fin 4)
  | auxA
  | auxB
  | auxR
  | rk (i : Fin 60)
  deriving DecidableEq, Repr

/-- The offset of a register (R108). -/
def Reg.offset : Reg → Addr
  | .cmd => 0x000
  | .status => 0x004
  | .cfg => 0x008
  | .padInfo => 0x00C
  | .key j => BitVec.ofNat 12 (0x010 + 4 * j.val)
  | .state j => BitVec.ofNat 12 (0x030 + 4 * j.val)
  | .auxA => 0x040
  | .auxB => 0x044
  | .auxR => 0x048
  | .rk i => BitVec.ofNat 12 (0x100 + 4 * i.val)

/-- The register an aligned address decodes to, none in the reserved ranges (R108). -/
def regAtWordOf (n : Nat) : Option Reg :=
  if n = 0x000 then some .cmd
  else if n = 0x004 then some .status
  else if n = 0x008 then some .cfg
  else if n = 0x00C then some .padInfo
  else if h : 0x010 ≤ n ∧ n < 0x030 then some (.key ⟨(n - 0x010) / 4, by omega⟩)
  else if h : 0x030 ≤ n ∧ n < 0x040 then some (.state ⟨(n - 0x030) / 4, by omega⟩)
  else if n = 0x040 then some .auxA
  else if n = 0x044 then some .auxB
  else if n = 0x048 then some .auxR
  else if h : 0x100 ≤ n ∧ n < 0x1F0 then some (.rk ⟨(n - 0x100) / 4, by omega⟩)
  else none

/-- The register an access reaches: 4 bytes at an address with `a[1:0] = 0` that R108 decodes (R102); none is a bus
error (R105). -/
def decodeAccess (a : Addr) (size : Nat) : Option Reg :=
  if size = 4 ∧ a.toNat % 4 = 0 then regAtWordOf a.toNat else none

/-- The system address of an offset (R109). Which one it is depends on the OPEN `CORE_BASE`. -/
def systemAddress (a : Addr) : Nat := Config.coreBase + a.toNat

/-- The offset a system address selects, if it lies in the window (R101, R109). -/
def windowOffset (n : Nat) : Option Addr :=
  if Config.coreBase ≤ n ∧ n < Config.coreBase + 0x1000 then some (BitVec.ofNat 12 (n - Config.coreBase)) else none

end Sys2Proof.Machine
end

