-- ==== Sys2Proof/Machine/Operands.lean ====
section
/-! DEFINITION. Operand forms: the bytes of a word and their big-endian packing (R9, R106), the byte and matrix views of
STATE (R54, R300), the key words of a key (R250), the round keys of the schedule (R56), the scalar operands (R210). -/

namespace Sys2Proof.Machine

/-- A block of 16 bytes: the byte view `S[0..16)` of STATE (R54). -/
abbrev Block := Vector Byte 16

/-- A column of the state matrix: 4 bytes, row 0 first (R206). -/
abbrev Column := Vector Byte 4

/-- `bytes(w)[k]`: byte 0 is the most significant (R9). -/
def wordByte (w : Word) (k : Fin 4) : Byte := w.extractLsb' (8 * (3 - k.val)) 8

/-- `word([b0, b1, b2, b3])` (R9). -/
def wordOf (b0 b1 b2 b3 : Byte) : Word := b0 ++ b1 ++ b2 ++ b3

/-- `bytes(w)` as a column (R9, R206). -/
def columnOfWord (w : Word) : Column := Vector.ofFn fun k => wordByte w k

/-- `word(col)` (R9, R206). -/
def wordOfColumn (col : Column) : Word := wordOf col[0] col[1] col[2] col[3]

/-- The low byte `v[7:0]` of a scalar operand; bits [31:8] are ignored (R210, R211). -/
def lowByte (v : Word) : Byte := v.extractLsb' 0 8

/-- The byte view of a group of four registers (R54): `S[k]` is byte `k mod 4` of register `k div 4`. -/
def blockOfWords (ws : Vector Word 4) : Block :=
  Vector.ofFn fun k => wordByte ws[k.val / 4] ⟨k.val % 4, Nat.mod_lt _ (by decide)⟩

/-- The registers of a byte view (R54): register j is `word(S[4j..4j+4))`. -/
def wordsOfBlock (b : Block) : Vector Word 4 :=
  Vector.ofFn fun j => wordOf b[4 * j.val] b[4 * j.val + 1] b[4 * j.val + 2] b[4 * j.val + 3]

/-- `s[r][c]`, row r and column c of the state matrix: byte `r + 4c` (R300). -/
def cell (s : Block) (r c : Fin 4) : Byte := s[r.val + 4 * c.val]

/-- The block whose matrix is `f` (R300): byte k is row `k mod 4`, column `k div 4`. -/
def ofMatrix (f : Fin 4 → Fin 4 → Byte) : Block :=
  Vector.ofFn fun k => f ⟨k.val % 4, Nat.mod_lt _ (by decide)⟩ ⟨k.val / 4, by omega⟩

/-- The byte view `S` of STATE (R54). -/
def State.block (s : State) : Block := blockOfWords s.state

/-- `S <- b`: writes all 16 bytes of STATE (R10). -/
def State.writeBlock (s : State) (b : Block) : State := { s with state := wordsOfBlock b }

/-- The key words of a 32-byte key (R250, R53): word j is `word(K[4j..4j+4))`. -/
def keyWords (k : Vector Byte 32) : Vector Word 8 :=
  Vector.ofFn fun j => wordOf k[4 * j.val] k[4 * j.val + 1] k[4 * j.val + 2] k[4 * j.val + 3]

/-- `Sched[i]`, the schedule as 240 bytes (R56): byte `i mod 4` of `W[i div 4]`. -/
def schedByte (w : Vector Word 60) (i : Fin 240) : Byte :=
  wordByte w[i.val / 4] ⟨i.val % 4, Nat.mod_lt _ (by decide)⟩

/-- Round key r, `Sched[16r..16r+16)` (R56). -/
def roundKey (w : Vector Word 60) (r : Fin 15) : Block :=
  Vector.ofFn fun k => schedByte w ⟨16 * r.val + k.val, by omega⟩

end Sys2Proof.Machine
end

