-- ==== Sys2Proof/Machine/Flags.lean ====
section
/-! DEFINITION. Status and configuration: the result codes (60_exceptions.md R500), the words software reads of STATUS, CFG
and PADINFO (10_state.md R61, R63, R64), and the interrupt line (R510). The block has no other flags (R66). -/

namespace Sys2Proof.Machine

/-- The 4-bit number of a result code (R500). Codes 6 to 15 are never produced. -/
def ResultCode.bits : ResultCode → BitVec 4
  | .ok => 0
  | .illegalCommand => 1
  | .invalidKeyLength => 2
  | .invalidBlockLength => 3
  | .invalidPadding => 4
  | .keyNotLoaded => 5

/-- `x[STATUS] = zext_32(LASTCODE ∥ 0b00000 ∥ ERR ∥ PV ∥ KV)` (R61). -/
def State.statusWord (s : State) : Word :=
  (s.lastCode ++ 0#5 ++ BitVec.ofBool s.err ++ BitVec.ofBool s.pv ++ BitVec.ofBool s.kv).setWidth 32

/-- `x[CFG] = zext_32(ERRIE)` (R63). -/
def State.cfgWord (s : State) : Word := (BitVec.ofBool s.errie).setWidth 32

/-- `x[PADINFO] = zext_32(KEEP ∥ 0b000 ∥ N)` (R64). -/
def State.padInfoWord (s : State) : Word := (s.padKeep ++ 0#3 ++ s.padN).setWidth 32

/-- The interrupt output, a level: `irq = STATUS.ERR ∧ CFG.ERRIE` (R510). -/
def State.irq (s : State) : Bool := s.err && s.errie

end Sys2Proof.Machine
end

