-- ==== Sys2Proof/Machine/Ops.lean ====
section
/-! DEFINITION. The named operations over the registers: how a command completes and how an error is taken and acknowledged
(60_exceptions.md R503 to R507), the writes each command makes, the host's reads and writes of the storage registers
(20_memory.md R103, R104), and reset (70_reset_and_hazards.md R600). -/

namespace Sys2Proof.Machine

/-- The end of every command (R505): `LASTCODE <- code`, and ERR set if the code is not OK. -/
def State.complete (s : State) (code : ResultCode) : State :=
  { s with lastCode := code.bits, err := s.err || decide (code ≠ .ok) }

/-- `finish OK` (R10, R505). -/
def State.finishOk (s : State) : Result := .next (s.complete .ok)

/-- `raise Err(code)` (R10): taking an exception on this block. No state is saved and nothing is vectored (R506): the command
ends, LASTCODE holds the code and the sticky ERR is set (R505). -/
def State.raiseErr (s : State) (code : ResultCode) : Result := .next (s.complete code)

/-- The host's acknowledgement of an error, in place of a return from an exception (R507): a bus write of v to STATUS clears
ERR if `v[2] = 1` and ignores every other bit (R62). -/
def State.writeStatus (s : State) (v : Word) : State := { s with err := s.err && !v.getLsbD 2 }

/-- The condition of a command that reads the schedule (R501): without an engine it fails with KEY_NOT_LOADED. -/
def State.requireKey (s : State) (body : Result) : Result := if s.kv then body else s.raiseErr .keyNotLoaded

/-- A scalar result: `x[AUX_R] <- v` (R10). -/
def State.setAuxR (s : State) (v : Word) : State := { s with auxR := v }

/-- A successful EXPAND: all 60 words together, and KV set (R262). -/
def State.loadSchedule (s : State) (w : Vector Word 60) : State := { s with w := w, kv := true }

/-- A failed construction: KV cleared, W as it was (R504). -/
def State.dropEngine (s : State) : State := { s with kv := false }

/-- A successful UNPAD: PV set, PADINFO written (R385). -/
def State.setPadInfo (s : State) (n keep : Nat) : State :=
  { s with pv := true, padN := BitVec.ofNat 5 n, padKeep := BitVec.ofNat 5 keep }

/-- A failed UNPAD: PV and PADINFO cleared (R504). -/
def State.clearPadInfo (s : State) : State := { s with pv := false, padN := 0, padKeep := 0 }

/-- The value a bus read of a register returns (R103). CMD has no storage and reads 0 (R65). -/
def State.readReg (s : State) : Reg → Word
  | .cmd => 0
  | .status => s.statusWord
  | .cfg => s.cfgWord
  | .padInfo => s.padInfoWord
  | .key j => s.key[j]
  | .state j => s.state[j]
  | .auxA => s.auxA
  | .auxB => s.auxB
  | .auxR => s.auxR
  | .rk i => s.w[i]

/-- What a bus write of v to a register that holds its own value does (R104); none where R104 names a bus error, or where
the write is a command (CMD, which `memWrite` performs). -/
def State.writeReg (s : State) (v : Word) : Reg → Option State
  | .status => some (s.writeStatus v)
  | .cfg => some { s with errie := v.getLsbD 0 }
  | .key j => some { s with key := s.key.set j v }
  | .state j => some { s with state := s.state.set j v }
  | .auxA => some { s with auxA := v }
  | .auxB => some { s with auxB := v }
  | .cmd => none
  | .padInfo => none
  | .auxR => none
  | .rk _ => none

/-- The slave's response to the access just performed (log 3). -/
def State.respond (s : State) (r : Response) : State := { s with response := some r }

/-- The host's next event leaves the list (log 1). -/
def State.withPending (s : State) (es : List HostEvent) : State := { s with pending := es }

/-- The reset input's effect, at a given level of it (R600): every element takes its reset value. The host's list is not the
block's and stays (log 4). -/
def State.applyReset (s : State) (level : Bool) : State :=
  { State.reset with resetAsserted := level, pending := s.pending }

end Sys2Proof.Machine
end

