-- ==== Sys2Proof/Machine/GfSbox.lean ====
section
/-! DEFINITION. 40_gf_sbox.md: the GF(2^8) multiplier, the S-box, Rcon, the MixColumns combiner, and GFMUL, SBOX, MIXCOL. -/

namespace Sys2Proof.Machine

/-- `xtime(a)` (R202): one shift of R200's loop, reduced by 0x1B. -/
def xtime (a : Byte) : Byte := if a.getLsbD 7 then (a <<< 1) ^^^ 0x1B else a <<< 1

/-- `n` turns of R200's loop, on the accumulator and the two operands. -/
def gfLoop : Nat → Byte → Byte → Byte → Byte
  | 0, acc, _, _ => acc
  | n + 1, acc, a, b => gfLoop n (if b.getLsbD 0 then acc ^^^ a else acc) (xtime a) (b >>> 1)

/-- `GFMul(a, b)`: eight turns from a zero accumulator (R200). -/
def gfMul (a b : Byte) : Byte := gfLoop 8 0 a b

/-- R220's table, a row a high nibble: byte 0 of a row (the leftmost) is the entry for low nibble 0. -/
def sboxRows : List (BitVec 128) :=
  [ 0x637c777bf26b6fc53001672bfed7ab76,
    0xca82c97dfa5947f0add4a2af9ca472c0,
    0xb7fd9326363ff7cc34a5e5f171d83115,
    0x04c723c31896059a071280e2eb27b275,
    0x09832c1a1b6e5aa0523bd6b329e32f84,
    0x53d100ed20fcb15b6acbbe394a4c58cf,
    0xd0efaafb434d338545f9027f503c9fa8,
    0x51a3408f929d38f5bcb6da2110fff3d2,
    0xcd0c13ec5f974417c4a77e3d645d1973,
    0x60814fdc222a908846eeb814de5e0bdb,
    0xe0323a0a4906245cc2d3ac629195e479,
    0xe7c8376d8dd54ea96c56f4ea657aae08,
    0xba78252e1ca6b4c6e8dd741f4bbd8b8a,
    0x703eb5664803f60e613557b986c11d9e,
    0xe1f8981169d98e949b1e87e9ce5528df,
    0x8ca1890dbfe6426841992d0fb054bb16 ]

/-- `SBOX[x]` (R220): row `x div 16`, column `x mod 16`. The table's values are the spec's general-knowledge supply (log 6). -/
def sboxTable (x : Byte) : Byte :=
  (sboxRows.getD (x.toNat / 16) 0).extractLsb' (8 * (15 - x.toNat % 16)) 8

/-- `RCON[0..10]` (R225). -/
def rconTable : List Byte := [0x00, 0x01, 0x02, 0x04, 0x08, 0x10, 0x20, 0x40, 0x80, 0x1B, 0x36]

/-- `RCON[i]` for i in 0..10 (R225); no command reads an index above 7 (R254). -/
def rcon (i : Nat) : Byte := rconTable.getD i 0

/-- `MixColumn([a, b, c, d])` (R206). -/
def mixColumn (col : Column) : Column :=
  #v[ gfMul 2 col[0] ^^^ gfMul 3 col[1] ^^^ col[2] ^^^ col[3],
      col[0] ^^^ gfMul 2 col[1] ^^^ gfMul 3 col[2] ^^^ col[3],
      col[0] ^^^ col[1] ^^^ gfMul 2 col[2] ^^^ gfMul 3 col[3],
      gfMul 3 col[0] ^^^ col[1] ^^^ col[2] ^^^ gfMul 2 col[3] ]

/-- GFMUL (R210). -/
def execGfmul (s : State) : Result :=
  (s.setAuxR ((gfMul (lowByte s.auxA) (lowByte s.auxB)).setWidth 32)).finishOk

/-- SBOX (R211). -/
def execSbox (s : State) : Result := (s.setAuxR ((sboxTable (lowByte s.auxA)).setWidth 32)).finishOk

/-- MIXCOL (R212). -/
def execMixcol (s : State) : Result :=
  (s.setAuxR (wordOfColumn (mixColumn (columnOfWord s.auxA)))).finishOk

end Sys2Proof.Machine
end

