-- ==== Sys2Proof/Machine/KeySchedule.lean ====
section
/-! DEFINITION. 41_key_schedule.md: RotWord, SubWord, KeyExpansion, and EXPAND, ROTWORD, SUBWORD. -/

namespace Sys2Proof.Machine

/-- `RotWord(word([b0,b1,b2,b3])) = word([b1,b2,b3,b0])` (R251). -/
def rotWord (w : Word) : Word := wordOf (wordByte w 1) (wordByte w 2) (wordByte w 3) (wordByte w 0)

/-- `SubWord`: each byte via the S-box (R252). -/
def subWord (w : Word) : Word :=
  wordOf (sboxTable (wordByte w 0)) (sboxTable (wordByte w 1)) (sboxTable (wordByte w 2)) (sboxTable (wordByte w 3))

/-- The `temp` of step i of KeyExpansion, from `W[i-1]` (R253). -/
def scheduleTemp (i : Nat) (prev : Word) : Word :=
  if i % 8 = 0 then subWord (rotWord prev) ^^^ wordOf (rcon (i / 8)) 0 0 0
  else if i % 8 = 4 then subWord prev
  else prev

/-- The first n turns, i = 8, 9, …, 8+n-1, of KeyExpansion's loop on a schedule whose first 8 words are set (R253). -/
def expandLoop (w : Vector Word 60) : (n : Nat) → n ≤ 52 → Vector Word 60
  | 0, _ => w
  | n + 1, h =>
    let w' := expandLoop w n (by omega)
    w'.set (n + 8) (w'[n] ^^^ scheduleTemp (n + 8) w'[n + 7])

/-- `KeyExpansion(K)` (R253), K as its 8 key words (R250). -/
def keyExpansion (key : Vector Word 8) : Vector Word 60 :=
  expandLoop (Vector.ofFn fun i => if h : i.val < 8 then key[i.val] else 0) 52 (Nat.le_refl 52)

/-- EXPAND L (R262). KEYj holds key word j (R53). -/
def execExpand (len : Byte) (s : State) : Result :=
  if len.toNat ≠ 32 then s.dropEngine.raiseErr .invalidKeyLength
  else (s.loadSchedule (keyExpansion s.key)).finishOk

/-- ROTWORD (R270). -/
def execRotword (s : State) : Result := (s.setAuxR (rotWord s.auxA)).finishOk

/-- SUBWORD (R271). -/
def execSubword (s : State) : Result := (s.setAuxR (subWord s.auxA)).finishOk

end Sys2Proof.Machine
end

