-- ==== Sys2Proof/Machine/BlockTransform.lean ====
section
/-! DEFINITION. 42_block_transform.md: the transposer, the four sub-transformations, the rounds and the cipher, and the eight
commands on STATE. -/

namespace Sys2Proof.Machine

/-- `Transpose(s)[r][c] = s[c][r]` (R301). -/
def transposeBlock (s : Block) : Block := ofMatrix fun r c => cell s c r

/-- `SubBytes(s)[k] = SBOX[s[k]]` (R315). -/
def subBytes (s : Block) : Block := Vector.ofFn fun k => sboxTable s[k]

/-- `ShiftRows(s)[r][c] = s[r][(c + r) mod 4]` (R322). -/
def shiftRows (s : Block) : Block :=
  ofMatrix fun r c => cell s r ⟨(c.val + r.val) % 4, Nat.mod_lt _ (by decide)⟩

/-- Column c of a block, bytes 4c..4c+3 (R330). -/
def columnOf (s : Block) (c : Fin 4) : Column := Vector.ofFn fun r => cell s r c

/-- `MixColumns(s)`: each column through `MixColumn` (R330). -/
def mixColumns (s : Block) : Block := ofMatrix fun r c => (mixColumn (columnOf s c))[r]

/-- `AddRoundKey(s, r)[k] = s[k] ⊕ Sched[16r + k]` (R335), under the schedule w. -/
def addRoundKey (w : Vector Word 60) (r : Fin 15) (s : Block) : Block :=
  Vector.ofFn fun k => s[k] ^^^ (roundKey w r)[k]

/-- `Round(s, r)` (R338). -/
def fullRound (w : Vector Word 60) (r : Fin 15) (s : Block) : Block :=
  addRoundKey w r (mixColumns (shiftRows (subBytes s)))

/-- `FinalRound(s)`, with round key 14 and no MixColumns (R338). -/
def finalRound (w : Vector Word 60) (s : Block) : Block := addRoundKey w 14 (shiftRows (subBytes s))

/-- Rounds 1, 2, …, n in increasing order (R339, step 2). -/
def fullRounds (w : Vector Word 60) (s : Block) : (n : Nat) → n ≤ 13 → Block
  | 0, _ => s
  | n + 1, h => fullRound w ⟨n + 1, by omega⟩ (fullRounds w s n (by omega))

/-- `Cipher(p)` under the schedule w (R339). -/
def cipher (w : Vector Word 60) (p : Block) : Block :=
  finalRound w (fullRounds w (addRoundKey w 0 p) 13 (Nat.le_refl 13))

/-- SUBBYTES (R320). -/
def execSubbytes (s : State) : Result := (s.writeBlock (subBytes s.block)).finishOk

/-- SHIFTROWS (R325). -/
def execShiftrows (s : State) : Result := (s.writeBlock (shiftRows s.block)).finishOk

/-- MIXCOLUMNS (R332). -/
def execMixcolumns (s : State) : Result := (s.writeBlock (mixColumns s.block)).finishOk

/-- TRANSPOSE (R302). -/
def execTranspose (s : State) : Result := (s.writeBlock (transposeBlock s.block)).finishOk

/-- ADDRK r (R340). An operand above 14, which the decoder never gives, is ILLEGAL_COMMAND here too (log 12). -/
def execAddrk (r : Byte) (s : State) : Result :=
  if h : r.toNat ≤ 14 then
    s.requireKey (s.writeBlock (addRoundKey s.w ⟨r.toNat, by omega⟩ s.block)).finishOk
  else s.raiseErr .illegalCommand

/-- ROUND r (R343). An operand outside 1..13 is ILLEGAL_COMMAND here too (log 12). -/
def execRound (r : Byte) (s : State) : Result :=
  if h : 1 ≤ r.toNat ∧ r.toNat ≤ 13 then
    s.requireKey (s.writeBlock (fullRound s.w ⟨r.toNat, by omega⟩ s.block)).finishOk
  else s.raiseErr .illegalCommand

/-- FINALROUND (R344). -/
def execFinalround (s : State) : Result := s.requireKey (s.writeBlock (finalRound s.w s.block)).finishOk

/-- ENCRYPT L (R345): KEY_NOT_LOADED comes before the length check (R502). -/
def execEncrypt (len : Byte) (s : State) : Result :=
  s.requireKey
    (if len.toNat ≠ 16 then s.raiseErr .invalidBlockLength else (s.writeBlock (cipher s.w s.block)).finishOk)

end Sys2Proof.Machine
end

