-- ==== Sys2Proof/Machine/Control.lean ====
section
/-! DEFINITION. 44_control_and_host.md: NOP. -/

namespace Sys2Proof.Machine

/-- NOP (R410): its only effect is LASTCODE; it does not clear ERR. -/
def execNop (s : State) : Result := s.finishOk

end Sys2Proof.Machine
end

