-- ==== Sys2Proof/Machine/Padding.lean ====
section
/-! DEFINITION. 43_padding.md: Pad and Unpad on byte sequences, and PAD and UNPAD on the final block. -/

namespace Sys2Proof.Machine

/-- `Pad(D) = D ++ rep(n, n)` with `n = 16 - (len(D) mod 16)` (R370). -/
def padSeq (d : List Byte) : List Byte :=
  d ++ List.replicate (16 - d.length % 16) (BitVec.ofNat 8 (16 - d.length % 16))

/-- `Unpad(D)` (R371); none is INVALID_PADDING. -/
def unpadSeq (d : List Byte) : Option (List Byte) :=
  match d.getLast? with
  | none => none
  | some n =>
    if n.toNat > 16 then none
    else if n.toNat > d.length then none
    else if (d.drop (d.length - n.toNat)).any (· != n) then none
    else some (d.take (d.length - n.toNat))

/-- PAD's fill: bytes `R..15` become `16 - R`, bytes `0..R-1` stay (R380). -/
def padBlock (count : Nat) (s : Block) : Block :=
  Vector.ofFn fun k => if k.val < count then s[k] else BitVec.ofNat 8 (16 - count)

/-- Some byte of the declared padding, `S[16-n..16)`, is not n (R385's last check). -/
def paddingMismatch (s : Block) (n : Byte) : Bool :=
  (List.finRange 16).any fun k => decide (16 - n.toNat ≤ k.val) && s[k] != n

/-- UNPAD's four checks on a window of vlen bytes (R385): the padding count, or none for INVALID_PADDING. -/
def paddingCount (vlen : Nat) (s : Block) : Option Nat :=
  if vlen = 0 then none
  else if s[15].toNat > 16 then none
  else if s[15].toNat > vlen then none
  else if paddingMismatch s s[15] then none
  else some s[15].toNat

/-- PAD R (R380). An operand above 15, which the decoder never gives, is ILLEGAL_COMMAND here too (log 12). -/
def execPad (count : Byte) (s : State) : Result :=
  if count.toNat ≤ 15 then (s.writeBlock (padBlock count.toNat s.block)).finishOk
  else s.raiseErr .illegalCommand

/-- UNPAD VLEN (R385): STATE is never written. An operand above 16 is ILLEGAL_COMMAND here too (log 12). -/
def execUnpad (vlen : Byte) (s : State) : Result :=
  if vlen.toNat ≤ 16 then
    match paddingCount vlen.toNat s.block with
    | some n => (s.setPadInfo n (vlen.toNat - n)).finishOk
    | none => s.clearPadInfo.raiseErr .invalidPadding
  else s.raiseErr .illegalCommand

end Sys2Proof.Machine
end

