-- ==== Sys2Proof/Machine/Dispatch.lean ====
section
/-! DEFINITION. One arm per command of 30_encoding.md R153. -/

namespace Sys2Proof.Machine

def exec (i : Instr) (s : State) : Host.Outcome State Fault Refusal :=
  match i with
  | .nop => Sys2Proof.Machine.execNop s
  | .expand len => Sys2Proof.Machine.execExpand len s
  | .encrypt len => Sys2Proof.Machine.execEncrypt len s
  | .addrk r => Sys2Proof.Machine.execAddrk r s
  | .subbytes => Sys2Proof.Machine.execSubbytes s
  | .shiftrows => Sys2Proof.Machine.execShiftrows s
  | .mixcolumns => Sys2Proof.Machine.execMixcolumns s
  | .round r => Sys2Proof.Machine.execRound r s
  | .finalround => Sys2Proof.Machine.execFinalround s
  | .transpose => Sys2Proof.Machine.execTranspose s
  | .gfmul => Sys2Proof.Machine.execGfmul s
  | .sbox => Sys2Proof.Machine.execSbox s
  | .subword => Sys2Proof.Machine.execSubword s
  | .rotword => Sys2Proof.Machine.execRotword s
  | .mixcol => Sys2Proof.Machine.execMixcol s
  | .pad count => Sys2Proof.Machine.execPad count s
  | .unpad vlen => Sys2Proof.Machine.execUnpad vlen s

end Sys2Proof.Machine
end

