-- ==== Sys2Proof/Machine/Bus.lean ====
section
/-! DEFINITION. The bus port: performing a command word (30_encoding.md R152), MemRead and MemWrite (20_memory.md R103, R104),
bus errors (R105), the reset input (70_reset_and_hazards.md R600, R601), and where the next command word stands. -/

namespace Sys2Proof.Machine

/-- `perform(c)` (R152): a word that spells no command completes with ILLEGAL_COMMAND (R155); the KV check stands in the
meanings of the four commands that need it (R501), after the legality of the word and before their own checks (R502). -/
def perform (c : Word) (s : State) : Result :=
  match decode c with
  | .error _ => s.raiseErr .illegalCommand
  | .ok i => exec i s

/-- `MemRead(a, size)` (R103); none is a bus error. -/
def memRead (a : Addr) (size : Nat) (s : State) : Option Word := (decodeAccess a size).map s.readReg

/-- `MemWrite(a, size, v)` (R104): a write to CMD performs the command; what R104 does not allow is a bus error. -/
def memWrite (a : Addr) (size : Nat) (v : Word) (s : State) : Result :=
  match decodeAccess a size with
  | some .cmd => perform v s
  | some r =>
    match s.writeReg v r with
    | some t => .next t
    | none => .fault (.busError (.write a size v))
  | none => .fault (.busError (.write a size v))

/-- One access, performed in full, with the response the host sees (R100, R110, R610): a write and the whole command it
issues are one transition, so it does not matter that `respond` is applied first. -/
def performAccess (s : State) : BusAccess → Result
  | .read a size =>
    match memRead a size s with
    | some v => .next (s.respond (.data v))
    | none => .fault (.busError (.read a size))
  | .write a size v => memWrite a size v (s.respond .done)

/-- One event from outside. An access while reset is asserted is refused (R601); asserting reset, or releasing it, leaves
every element at its reset value (R600); releasing a reset that is not asserted changes no level and nothing else (log 4). -/
def takeEvent (s : State) : HostEvent → Result
  | .access a => if s.resetAsserted then .refused (.accessDuringReset a) else performAccess s a
  | .assertReset => .next (s.applyReset true)
  | .releaseReset => .next (if s.resetAsserted then s.applyReset false else s)

/-- One transition of the system (R100): the next event of the host. With none to come, nothing happens: the block takes no
step of its own and keeps its registers (R525; log 1). -/
def stepHost (s : State) : Result :=
  match s.pending with
  | [] => .next s
  | e :: es => takeEvent (s.withPending es) e

/-- The state a host finds after a bus error (R105): nothing changed, the access is over and its response is the error. -/
def State.afterBusError (s : State) : State := (s.withPending s.pending.tail).respond .busError

/-- The data a response carries to the host; an error response carries 0 (R105). -/
def Response.readData : Response → Word
  | .data v => v
  | .done => 0
  | .busError => 0

/-- The transition of a host that goes on after a bus error, as 95_test_vectors.md P4 does (log 2). -/
def stepPastBusError (s : State) : Result :=
  match stepHost s with
  | .fault (.busError _) => .next s.afterBusError
  | .next t => .next t
  | .refused r => .refused r

/-- The host's next access is a write of this table word to CMD, and reset is released: the very next step performs it. -/
def State.withCommandNext (s : State) (nbits w : Nat) : State :=
  { s with
    resetAsserted := false
    pending := .access (.write 0x000 4 (BitVec.ofNat 32 (tableWord nbits w))) :: s.pending }

end Sys2Proof.Machine
end

