-- ==== Sys2Proof/Machine/Step.lean ====
section
/-! DEFINITION. One step: one transition of the system (20_memory.md R100). -/

namespace Sys2Proof.Machine

/-- One step of the machine: the host's next event, performed in full (R100, R110). -/
def step (s : State) : Host.Outcome State Fault Refusal := stepHost s

/-- `s` with a command word as the host's next write to CMD (log 10). -/
def State.withFetchWord (s : State) (nbits w : Nat) : State := s.withCommandNext nbits w

end Sys2Proof.Machine
end

