-- ==== Sys2Proof/Machine/HostProgram.lean ====
section
/-! DEFINITION. Host programs: the notation of 30_encoding.md R160 and R161 as lists of events, what a host reads of them, and
the host procedures of 44_control_and_host.md R430 to R433. -/

namespace Sys2Proof.Machine

/-- `WR reg, v` (R160). -/
def wr (r : Reg) (v : Word) : HostEvent := .access (.write r.offset 4 v)

/-- `RD reg` (R160). -/
def rd (r : Reg) : HostEvent := .access (.read r.offset 4)

/-- `MNEMONIC arg`, that is `WR CMD, enc(opc, arg)` (R160). -/
def issue (i : Instr) : HostEvent := wr .cmd (encode i)

/-- The bytes 4j..4j+3 of a sequence as a word (R9, R106); a byte beyond its end counts as 0. -/
def wordAt (d : List Byte) (j : Nat) : Word :=
  wordOf (d.getD (4 * j) 0) (d.getD (4 * j + 1) 0) (d.getD (4 * j + 2) 0) (d.getD (4 * j + 3) 0)

/-- `LDKEY k0..k31` (R161). -/
def ldKey (k : List Byte) : List HostEvent := (List.finRange 8).map fun j => wr (.key j) (wordAt k j.val)

/-- `LDSTATE b0..b15` (R161). -/
def ldState (d : List Byte) : List HostEvent := (List.finRange 4).map fun j => wr (.state j) (wordAt d j.val)

/-- `RDSTATE` (R161). -/
def rdState : List HostEvent := (List.finRange 4).map fun j => rd (.state j)

/-- `SETKEY` (R161). -/
def setKey : List HostEvent := [issue (.expand 32)]

/-- `ENC` (R161). -/
def enc : List HostEvent := [issue (.encrypt 16)]

/-- `CLRERR` (R161). -/
def clrErr : List HostEvent := [wr .status 0x00000004]

/-- `CHECK` (R161): the host reads STATUS. -/
def check : List HostEvent := [rd .status]

/-- The data the host records of an event: a read's data (R160). -/
def recorded (e : HostEvent) (t : State) : List Word :=
  match e with
  | .access (.read _ _) => (t.response.map Response.readData).toList
  | .access (.write _ _ _) => []
  | .assertReset => []
  | .releaseReset => []

/-- Perform a host program, event by event; the result is the block's state and the data the host read, in order. The events
still pending in the state are not touched. -/
def runHost : List HostEvent → State → Host.Outcome (State × List Word) Fault Refusal
  | [], s => .next (s, [])
  | e :: es, s =>
    match takeEvent s e with
    | .fault f => .fault f
    | .refused r => .refused r
    | .next t =>
      match runHost es t with
      | .fault f => .fault f
      | .refused r => .refused r
      | .next (u, vs) => .next (u, recorded e t ++ vs)

/-- `bytes(w)` as a sequence (R9). -/
def bytesOfWord (w : Word) : List Byte := (columnOfWord w).toList

/-- The bytes of words in order (R106). -/
def bytesOfWords (ws : List Word) : List Byte := ws.flatMap bytesOfWord

/-- A 16-byte sequence as a block (R9). -/
def blockOfBytes (d : List Byte) : Block := Vector.ofFn fun k => d.getD k.val 0

/-- The ciphers of the first n 16-byte blocks of a sequence, concatenated (R430). -/
def encryptBlocks (w : Vector Word 60) : Nat → List Byte → List Byte
  | 0, _ => []
  | n + 1, q => (cipher w (blockOfBytes (q.take 16))).toList ++ encryptBlocks w n (q.drop 16)

/-- `EncryptMessage(P)` under the schedule w (R430). -/
def encryptMessage (w : Vector Word 60) (p : List Byte) : List Byte :=
  encryptBlocks w ((padSeq p).length / 16) (padSeq p)

/-- `CONSTRUCT(K)` (R433): the key if it has 32 bytes, EXPAND with the declared length, CHECK. -/
def constructProgram (k : List Byte) : List HostEvent :=
  (if k.length = 32 then ldKey k else []) ++ [issue (.expand (BitVec.ofNat 8 (min k.length 255)))] ++ check

/-- The full data blocks of `ENCRYPT_MESSAGE` (R431), n of them. -/
def fullBlocksProgram : Nat → List Byte → List HostEvent
  | 0, _ => []
  | n + 1, p => ldState (p.take 16) ++ enc ++ rdState ++ fullBlocksProgram n (p.drop 16)

/-- The accesses of `ENCRYPT_MESSAGE(P)` (R431); `fill` is the "any 16-R bytes" after the final partial block. -/
def encryptMessageProgram (p : List Byte) (fill : Block) : List HostEvent :=
  fullBlocksProgram (p.length / 16) p
    ++ ldState (p.drop (16 * (p.length / 16)) ++ fill.toList)
    ++ [issue (.pad (BitVec.ofNat 8 (p.length % 16)))] ++ enc ++ rdState ++ check

/-- What `ENCRYPT_MESSAGE` returns (R431): the blocks read back, or none, an error, if the final CHECK finds ERR = 1. -/
def encryptMessageResult (reads : List Word) : Option (List Byte) :=
  match reads.getLast? with
  | none => none
  | some status => if status.getLsbD 2 then none else some (bytesOfWords reads.dropLast)

/-- The accesses of `UNPAD_BUFFER(D)` (R432): the last VLEN bytes right-aligned after `fill`, UNPAD, CHECK, PADINFO. -/
def unpadBufferProgram (d : List Byte) (fill : Block) : List HostEvent :=
  ldState (fill.toList.take (16 - min d.length 16) ++ d.drop (d.length - min d.length 16))
    ++ [issue (.unpad (BitVec.ofNat 8 (min d.length 16)))] ++ check ++ [rd .padInfo]

/-- What `UNPAD_BUFFER(D)` returns (R432): none, InvalidPadding, on LASTCODE = 4, else D without its last PADINFO.N bytes. -/
def unpadBufferResult (d : List Byte) (reads : List Word) : Option (List Byte) :=
  match reads with
  | [status, padInfo] =>
    if status.extractLsb' 8 4 = 4 then none else some (d.take (d.length - (padInfo.extractLsb' 0 5).toNat))
  | _ => none

end Sys2Proof.Machine
end

