-- ==== Sys2Proof/Safety.lean ====
section
/-! DEFINITION. What the claims about the machine speak of: the invariant of its states, a well-behaved host, safe runs, and
which part of the state an instruction may change. -/

namespace Sys2Proof.Machine

/-- LASTCODE holds one of the codes 0..5 (60_exceptions.md R500; 93_implementation_defined.md U16). -/
def State.CodeLegal (s : State) : Prop := s.lastCode.toNat ≤ 5

/-- PADINFO's fields lie in 0..16 (10_state.md R64), and both are 0 unless PV is set (R59, R504). -/
def State.PadInfoLegal (s : State) : Prop :=
  s.padN.toNat ≤ 16 ∧ s.padKeep.toNat ≤ 16 ∧ (s.pv = false → s.padN = 0 ∧ s.padKeep = 0)

/-- The key an expanded schedule was made from: its first 8 words (10_state.md R53). -/
def scheduleKey (w : Vector Word 60) : Vector Word 8 := Vector.ofFn fun j => w[j.val]

/-- STATUS.KV = 1 means W is the expansion of a key (10_state.md R58), which is then W[0..7] (R53). -/
def State.ScheduleLegal (s : State) : Prop := s.kv = true → s.w = keyExpansion (scheduleKey s.w)

/-- While reset is asserted every element holds its reset value (70_reset_and_hazards.md R600). -/
def State.ResetHeld (s : State) : Prop :=
  s.resetAsserted = true → s = { State.reset with resetAsserted := true, pending := s.pending, response := s.response }

/-- The invariant of the machine's states. -/
structure State.Inv (s : State) : Prop where
  codeLegal : s.CodeLegal
  padInfoLegal : s.PadInfoLegal
  scheduleLegal : s.ScheduleLegal
  resetHeld : s.ResetHeld

/-- An access that is no bus error: R102 and R108, and for a write R104. -/
def BusAccess.accepted : BusAccess → Bool
  | .read a size => (decodeAccess a size).isSome
  | .write a size _ =>
    match decodeAccess a size with
    | none => false
    | some .padInfo => false
    | some .auxR => false
    | some (.rk _) => false
    | some .cmd => true
    | some .status => true
    | some .cfg => true
    | some (.key _) => true
    | some (.state _) => true
    | some .auxA => true
    | some .auxB => true

/-- The host's next event is one it may make (R105, R601): no bus error, and no access while reset is asserted. -/
def State.hostWellBehaved (s : State) : Bool :=
  match s.pending with
  | [] => true
  | .access a :: _ => !s.resetAsserted && a.accepted
  | .assertReset :: _ => true
  | .releaseReset :: _ => true

/-- A run of k steps that meets no fault and no refusal. -/
def SafeRun (k : Nat) (s : State) : Prop := ∃ t, Host.Core.run Sys2Proof.core k s = .next t

/-- From s to t only STATE and LASTCODE change. -/
abbrev OnlyBlock (s t : State) : Prop := t = { s with state := t.state, lastCode := t.lastCode }

/-- From s to t only AUX_R and LASTCODE change. -/
abbrev OnlyAuxR (s t : State) : Prop := t = { s with auxR := t.auxR, lastCode := t.lastCode }

/-- The block's registers, those of R50, are the same in s and t; only the model's own fields may differ. -/
abbrev SameRegisters (s t : State) : Prop :=
  t = { s with resetAsserted := t.resetAsserted, pending := t.pending, response := t.response }

/-- The "KV" column of 30_encoding.md R153: the commands that read the schedule (60_exceptions.md R501). -/
def needsKey : Instr → Bool
  | .encrypt _ | .addrk _ | .round _ | .finalround => true
  | .nop | .expand _ | .subbytes | .shiftrows | .mixcolumns | .transpose => false
  | .gfmul | .sbox | .subword | .rotword | .mixcol | .pad _ | .unpad _ => false

/-- A command word of 30_encoding.md R155, in that rule's own terms: reserved bits set, one of the 239 unassigned opcodes, or
an ARG outside its opcode's legal set. -/
abbrev IllegalWord (c : Word) : Prop :=
  let opc := (opcField c).toNat
  let arg := (argField c).toNat
  rsvField c ≠ 0 ∨
  (0x03 ≤ opc ∧ opc ≤ 0x0F) ∨ (0x17 ≤ opc ∧ opc ≤ 0x1F) ∨ (0x25 ≤ opc ∧ opc ≤ 0x2F) ∨ 0x32 ≤ opc ∨
  ((opc = 0x00 ∨ (0x11 ≤ opc ∧ opc ≤ 0x13) ∨ opc = 0x15 ∨ opc = 0x16 ∨ (0x20 ≤ opc ∧ opc ≤ 0x24)) ∧ arg ≠ 0) ∨
  (opc = 0x10 ∧ 15 ≤ arg) ∨ (opc = 0x14 ∧ (arg = 0 ∨ 14 ≤ arg)) ∨ (opc = 0x30 ∧ 16 ≤ arg) ∨ (opc = 0x31 ∧ 17 ≤ arg)

/-- The state after a command that fails with ILLEGAL_COMMAND: LASTCODE and ERR, nothing else (60_exceptions.md R503, R505). -/
abbrev afterIllegal (s : State) : State := { s with lastCode := 1, err := true }

/-- The state after a command that fails with KEY_NOT_LOADED (60_exceptions.md R501, R503, R505). -/
abbrev afterNoKey (s : State) : State := { s with lastCode := 5, err := true }

/-- What UNPAD accepts in a window of vlen bytes, in the words of 43_padding.md R385: the last byte n is a count of at most
16 and at most vlen, and bytes 16-n..15 all equal n. -/
abbrev PaddingValid (s : Block) (vlen : Nat) : Prop :=
  vlen ≠ 0 ∧ s[15].toNat ≤ 16 ∧ s[15].toNat ≤ vlen ∧ ∀ k : Fin 16, 16 - s[15].toNat ≤ k.val → s[k] = s[15]

/-- Run commands one after another, as the sequence of CMD writes that issues them (20_memory.md R110). -/
def runCommands : List Instr → State → Result
  | [], s => .next s
  | i :: is, s =>
    match exec i s with
    | .next t => runCommands is t
    | .fault f => .fault f
    | .refused r => .refused r

/-- The word of a command with an ARG, as its rule writes it: `opc | arg << 8` (for example 42_block_transform.md R340). -/
abbrev wordWithArg (opc : Word) (arg : Byte) : Word := opc ||| (arg.setWidth 32 <<< 8)

/-- The carry-less product of a and b as polynomials over GF(2), of degree at most 14 (40_gf_sbox.md R200). -/
def clProduct (a b : Byte) : BitVec 16 :=
  (List.range 8).foldl (fun acc i => if b.getLsbD i then acc ^^^ (a.setWidth 16 <<< i) else acc) 0

/-- The remainder of a polynomial of degree at most 15 modulo x^8+x^4+x^3+x+1, which is 0x11B (40_gf_sbox.md R200): the terms
of degree 15, 14, …, 8 are cancelled in turn. -/
def polyMod (p : BitVec 16) : Byte :=
  ((List.range 8).foldl (fun q i => if q.getLsbD (15 - i) then q ^^^ (0x11B#16 <<< (7 - i)) else q) p).setWidth 8

/-- The affine map A of 40_gf_sbox.md R222. -/
def affineMap (b : Byte) : Byte :=
  BitVec.ofBoolListLE ((List.range 8).map fun i =>
    b.getLsbD i ^^ b.getLsbD ((i + 4) % 8) ^^ b.getLsbD ((i + 5) % 8) ^^ b.getLsbD ((i + 6) % 8) ^^
      b.getLsbD ((i + 7) % 8) ^^ (0x63 : Byte).getLsbD i)

end Sys2Proof.Machine
end

