-- ==== Sys2Proof/Certificates/Slice0/Obligations.lean ====
section
/-! DEFINITION. The statements for the provers. Each formalises rules of spec/; OBLIGATIONS.json names them.
Where a statement concludes `.next { s with … }`, the record says the frame as well: every register it does not name, and so
every value a bus read returns from one, is as before. The block has no memory besides its registers (20_memory.md). -/

open Sys2Proof Sys2Proof.Machine

/-! ## Encoding (30_encoding.md) -/

/-- R158, R150, R153: decoding the word of a legal command gives the command back, with every operand. -/
def Obligations.DecodeOfEncode : Prop := ∀ i : Instr, i.wellFormed = true → decode (encode i) = .ok i

/-- R156: a word has one meaning; what decodes is legal and is the encoding of what it decodes to. -/
def Obligations.EncodeOfDecode : Prop :=
  ∀ (c : Word) (i : Instr), decode c = .ok i → i.wellFormed = true ∧ encode i = c

/-- R150, R153: words written out from R153's columns decode to the command of their row. A sanity statement. -/
def Obligations.WordsDecodeAsTabulated : Prop :=
  decode 0x00000000 = .ok .nop ∧ decode 0x00002001 = .ok (.expand 32) ∧ decode 0x00001002 = .ok (.encrypt 16) ∧
  decode 0x00000E10 = .ok (.addrk 14) ∧ decode 0x00000D14 = .ok (.round 13) ∧ decode 0x00000015 = .ok .finalround ∧
  decode 0x00000020 = .ok .gfmul ∧ decode 0x00000530 = .ok (.pad 5) ∧ decode 0x00001031 = .ok (.unpad 16)

/-- R155: the illegal words complete with ILLEGAL_COMMAND and have only the effects of R503 and R505. -/
def Obligations.IllegalWordsComplete : Prop :=
  ∀ (c : Word) (s : State), IllegalWord c → perform c s = .next (afterIllegal s)

/-- R155, R156: every other word is the encoding of one command of R153, and performing it is that command's meaning. -/
def Obligations.LegalWordsPerformTheirCommand : Prop :=
  ∀ c : Word, ¬ IllegalWord c → ∃ i : Instr, i.wellFormed = true ∧ encode i = c ∧ ∀ s : State, perform c s = exec i s

/-! ## The commands, one by one -/

/-- R410. -/
def Obligations.NopCommand : Prop :=
  ∀ s : State,
    exec .nop s = .next { s with lastCode := 0 } ∧ perform 0x00000000 s = .next { s with lastCode := 0 } ∧
    ∀ c : Word, opcField c = 0x00 → c ≠ 0x00000000 → perform c s = .next (afterIllegal s)

/-- R262: success, a wrong declared length, and reserved bits. -/
def Obligations.ExpandCommand : Prop :=
  ∀ s : State,
    exec (.expand 32) s = .next { s with w := keyExpansion s.key, kv := true, lastCode := 0 } ∧
    perform 0x00002001 s = .next { s with w := keyExpansion s.key, kv := true, lastCode := 0 } ∧
    (∀ len : Byte, len.toNat ≠ 32 →
      exec (.expand len) s = .next { s with kv := false, lastCode := 2, err := true } ∧
      perform (wordWithArg 0x00000001 len) s = .next { s with kv := false, lastCode := 2, err := true }) ∧
    ∀ c : Word, opcField c = 0x01 → rsvField c ≠ 0 → perform c s = .next (afterIllegal s)

/-- R253: the words of the schedule, by the recurrence. -/
def Obligations.KeyExpansionRecurrence : Prop :=
  ∀ (key : Vector Word 8) (i : Fin 60),
    (∀ h : i.val < 8, (keyExpansion key)[i] = key[i.val]) ∧
    (8 ≤ i.val →
      (keyExpansion key)[i] =
        (keyExpansion key)[i.val - 8] ^^^
          (if i.val % 8 = 0 then subWord (rotWord (keyExpansion key)[i.val - 1]) ^^^ wordOf (rcon (i.val / 8)) 0 0 0
           else if i.val % 8 = 4 then subWord (keyExpansion key)[i.val - 1]
           else (keyExpansion key)[i.val - 1]))

/-- R345: success, no engine, a wrong declared length, reserved bits. -/
def Obligations.EncryptCommand : Prop :=
  ∀ s : State,
    (s.kv = true →
      ∃ t, exec (.encrypt 16) s = .next t ∧ perform 0x00001002 s = .next t ∧
        OnlyBlock s t ∧ t.lastCode = 0 ∧ t.block = cipher s.w s.block) ∧
    (∀ len : Byte, s.kv = false →
      exec (.encrypt len) s = .next (afterNoKey s) ∧ perform (wordWithArg 0x00000002 len) s = .next (afterNoKey s)) ∧
    (∀ len : Byte, s.kv = true → len.toNat ≠ 16 →
      exec (.encrypt len) s = .next { s with lastCode := 3, err := true } ∧
      perform (wordWithArg 0x00000002 len) s = .next { s with lastCode := 3, err := true }) ∧
    ∀ c : Word, opcField c = 0x02 → rsvField c ≠ 0 → perform c s = .next (afterIllegal s)

/-- R340, R335: STATEj becomes STATEj ⊕ W[4r+j]; no engine; illegal words. -/
def Obligations.AddrkCommand : Prop :=
  ∀ s : State,
    (∀ r : Fin 15, s.kv = true →
      ∃ t, exec (.addrk (BitVec.ofNat 8 r.val)) s = .next t ∧
        perform (wordWithArg 0x00000010 (BitVec.ofNat 8 r.val)) s = .next t ∧
        OnlyBlock s t ∧ t.lastCode = 0 ∧ ∀ j : Fin 4, t.state[j] = s.state[j] ^^^ s.w[4 * r.val + j.val]) ∧
    (∀ r : Fin 15, s.kv = false →
      exec (.addrk (BitVec.ofNat 8 r.val)) s = .next (afterNoKey s) ∧
      perform (wordWithArg 0x00000010 (BitVec.ofNat 8 r.val)) s = .next (afterNoKey s)) ∧
    ∀ c : Word, opcField c = 0x10 → (14 < (argField c).toNat ∨ rsvField c ≠ 0) → perform c s = .next (afterIllegal s)

/-- R320, R315. -/
def Obligations.SubbytesCommand : Prop :=
  ∀ s : State,
    (∃ t, exec .subbytes s = .next t ∧ perform 0x00000011 s = .next t ∧ OnlyBlock s t ∧ t.lastCode = 0 ∧
      ∀ k : Fin 16, t.block[k] = sboxTable s.block[k]) ∧
    ∀ c : Word, opcField c = 0x11 → c ≠ 0x00000011 → perform c s = .next (afterIllegal s)

/-- R325, R322: output byte k takes input byte (k mod 4) + 4·(((k div 4) + (k mod 4)) mod 4). -/
def Obligations.ShiftrowsCommand : Prop :=
  ∀ s : State,
    (∃ t, exec .shiftrows s = .next t ∧ perform 0x00000012 s = .next t ∧ OnlyBlock s t ∧ t.lastCode = 0 ∧
      ∀ k : Fin 16, t.block[k] = s.block[k.val % 4 + 4 * ((k.val / 4 + k.val % 4) % 4)]) ∧
    ∀ c : Word, opcField c = 0x12 → c ≠ 0x00000012 → perform c s = .next (afterIllegal s)

/-- R332, R330, R206: column c, bytes 4c..4c+3, becomes [2a⊕3b⊕c⊕d, a⊕2b⊕3c⊕d, a⊕b⊕2c⊕3d, 3a⊕b⊕c⊕2d]. -/
def Obligations.MixcolumnsCommand : Prop :=
  ∀ s : State,
    (∃ t, exec .mixcolumns s = .next t ∧ perform 0x00000013 s = .next t ∧ OnlyBlock s t ∧ t.lastCode = 0 ∧
      ∀ (c : Fin 4) (b0 b1 b2 b3 : Byte),
        s.block[4 * c.val] = b0 → s.block[4 * c.val + 1] = b1 → s.block[4 * c.val + 2] = b2 → s.block[4 * c.val + 3] = b3 →
        t.block[4 * c.val] = gfMul 2 b0 ^^^ gfMul 3 b1 ^^^ b2 ^^^ b3 ∧
        t.block[4 * c.val + 1] = b0 ^^^ gfMul 2 b1 ^^^ gfMul 3 b2 ^^^ b3 ∧
        t.block[4 * c.val + 2] = b0 ^^^ b1 ^^^ gfMul 2 b2 ^^^ gfMul 3 b3 ∧
        t.block[4 * c.val + 3] = gfMul 3 b0 ^^^ b1 ^^^ b2 ^^^ gfMul 2 b3) ∧
    ∀ c : Word, opcField c = 0x13 → c ≠ 0x00000013 → perform c s = .next (afterIllegal s)

/-- R343, R338: ROUND r leaves what SUBBYTES, SHIFTROWS, MIXCOLUMNS, ADDRK r leave; no engine; illegal words. -/
def Obligations.RoundCommand : Prop :=
  ∀ s : State,
    (∀ r : Fin 15, 1 ≤ r.val → r.val ≤ 13 → s.kv = true →
      ∃ t, exec (.round (BitVec.ofNat 8 r.val)) s = .next t ∧
        perform (wordWithArg 0x00000014 (BitVec.ofNat 8 r.val)) s = .next t ∧
        OnlyBlock s t ∧ t.lastCode = 0 ∧
        t.block = addRoundKey s.w r (mixColumns (shiftRows (subBytes s.block))) ∧
        runCommands [.subbytes, .shiftrows, .mixcolumns, .addrk (BitVec.ofNat 8 r.val)] s = .next t) ∧
    (∀ r : Fin 15, 1 ≤ r.val → r.val ≤ 13 → s.kv = false →
      exec (.round (BitVec.ofNat 8 r.val)) s = .next (afterNoKey s) ∧
      perform (wordWithArg 0x00000014 (BitVec.ofNat 8 r.val)) s = .next (afterNoKey s)) ∧
    ∀ c : Word, opcField c = 0x14 →
      ((argField c).toNat = 0 ∨ 14 ≤ (argField c).toNat ∨ rsvField c ≠ 0) → perform c s = .next (afterIllegal s)

/-- R344, R338: FINALROUND leaves what SUBBYTES, SHIFTROWS, ADDRK 14 leave; no engine; illegal words. -/
def Obligations.FinalroundCommand : Prop :=
  ∀ s : State,
    (s.kv = true →
      ∃ t, exec .finalround s = .next t ∧ perform 0x00000015 s = .next t ∧ OnlyBlock s t ∧ t.lastCode = 0 ∧
        t.block = addRoundKey s.w 14 (shiftRows (subBytes s.block)) ∧
        runCommands [.subbytes, .shiftrows, .addrk 14] s = .next t) ∧
    (s.kv = false → exec .finalround s = .next (afterNoKey s) ∧ perform 0x00000015 s = .next (afterNoKey s)) ∧
    ∀ c : Word, opcField c = 0x15 → c ≠ 0x00000015 → perform c s = .next (afterIllegal s)

/-- R302, R301: output byte k takes input byte 4·(k mod 4) + (k div 4). -/
def Obligations.TransposeCommand : Prop :=
  ∀ s : State,
    (∃ t, exec .transpose s = .next t ∧ perform 0x00000016 s = .next t ∧ OnlyBlock s t ∧ t.lastCode = 0 ∧
      ∀ k : Fin 16, t.block[k] = s.block[4 * (k.val % 4) + k.val / 4]) ∧
    ∀ c : Word, opcField c = 0x16 → c ≠ 0x00000016 → perform c s = .next (afterIllegal s)

/-- R210: the low bytes are multiplied, bits [31:8] of both operands are ignored, AUX_R[31:8] is 0. -/
def Obligations.GfmulCommand : Prop :=
  ∀ s : State,
    (∃ t, exec .gfmul s = .next t ∧ perform 0x00000020 s = .next t ∧ OnlyAuxR s t ∧ t.lastCode = 0 ∧
      t.auxR = (gfMul (s.auxA.extractLsb' 0 8) (s.auxB.extractLsb' 0 8)).setWidth 32) ∧
    ∀ c : Word, opcField c = 0x20 → c ≠ 0x00000020 → perform c s = .next (afterIllegal s)

/-- R211: the S-box on the low byte of AUX_A, zero-extended. -/
def Obligations.SboxCommand : Prop :=
  ∀ s : State,
    (∃ t, exec .sbox s = .next t ∧ perform 0x00000021 s = .next t ∧ OnlyAuxR s t ∧ t.lastCode = 0 ∧
      t.auxR = (sboxTable (s.auxA.extractLsb' 0 8)).setWidth 32) ∧
    ∀ c : Word, opcField c = 0x21 → c ≠ 0x00000021 → perform c s = .next (afterIllegal s)

/-- R271, R252: every byte of AUX_A through the S-box. -/
def Obligations.SubwordCommand : Prop :=
  ∀ s : State,
    (∃ t, exec .subword s = .next t ∧ perform 0x00000022 s = .next t ∧ OnlyAuxR s t ∧ t.lastCode = 0 ∧
      ∀ k : Fin 4, wordByte t.auxR k = sboxTable (wordByte s.auxA k)) ∧
    ∀ c : Word, opcField c = 0x22 → c ≠ 0x00000022 → perform c s = .next (afterIllegal s)

/-- R270, R251: a 32-bit rotate left by 8. -/
def Obligations.RotwordCommand : Prop :=
  ∀ s : State,
    (∃ t, exec .rotword s = .next t ∧ perform 0x00000023 s = .next t ∧ OnlyAuxR s t ∧ t.lastCode = 0 ∧
      t.auxR = s.auxA.rotateLeft 8) ∧
    ∀ c : Word, opcField c = 0x23 → c ≠ 0x00000023 → perform c s = .next (afterIllegal s)

/-- R212, R206: the MixColumns combiner on AUX_A, byte 0 in bits [31:24]. -/
def Obligations.MixcolCommand : Prop :=
  ∀ (s : State) (b0 b1 b2 b3 : Byte), s.auxA = b0 ++ b1 ++ b2 ++ b3 →
    (∃ t, exec .mixcol s = .next t ∧ perform 0x00000024 s = .next t ∧ OnlyAuxR s t ∧ t.lastCode = 0 ∧
      t.auxR = (gfMul 2 b0 ^^^ gfMul 3 b1 ^^^ b2 ^^^ b3) ++ (b0 ^^^ gfMul 2 b1 ^^^ gfMul 3 b2 ^^^ b3) ++
        (b0 ^^^ b1 ^^^ gfMul 2 b2 ^^^ gfMul 3 b3) ++ (gfMul 3 b0 ^^^ b1 ^^^ b2 ^^^ gfMul 2 b3)) ∧
    ∀ c : Word, opcField c = 0x24 → c ≠ 0x00000024 → perform c s = .next (afterIllegal s)

/-- R380: bytes R..15 become 16 - R, bytes 0..R-1 stay; illegal words. -/
def Obligations.PadCommand : Prop :=
  ∀ s : State,
    (∀ r : Fin 16,
      ∃ t, exec (.pad (BitVec.ofNat 8 r.val)) s = .next t ∧
        perform (wordWithArg 0x00000030 (BitVec.ofNat 8 r.val)) s = .next t ∧ OnlyBlock s t ∧ t.lastCode = 0 ∧
        ∀ k : Fin 16,
          (k.val < r.val → t.block[k] = s.block[k]) ∧ (r.val ≤ k.val → (t.block[k]).toNat = 16 - r.val)) ∧
    ∀ c : Word, opcField c = 0x30 → (15 < (argField c).toNat ∨ rsvField c ≠ 0) → perform c s = .next (afterIllegal s)

/-- R385: success writes PV, N and KEEP; INVALID_PADDING clears them; STATE is never written; illegal words. -/
def Obligations.UnpadCommand : Prop :=
  ∀ s : State,
    (∀ v : Fin 17, PaddingValid s.block v.val →
      ∃ t, exec (.unpad (BitVec.ofNat 8 v.val)) s = .next t ∧
        perform (wordWithArg 0x00000031 (BitVec.ofNat 8 v.val)) s = .next t ∧
        t = { s with pv := true, padN := t.padN, padKeep := t.padKeep, lastCode := 0 } ∧
        t.padN.toNat = s.block[15].toNat ∧ t.padKeep.toNat = v.val - s.block[15].toNat) ∧
    (∀ v : Fin 17, ¬ PaddingValid s.block v.val →
      exec (.unpad (BitVec.ofNat 8 v.val)) s =
        .next { s with pv := false, padN := 0, padKeep := 0, lastCode := 4, err := true } ∧
      perform (wordWithArg 0x00000031 (BitVec.ofNat 8 v.val)) s =
        .next { s with pv := false, padN := 0, padKeep := 0, lastCode := 4, err := true }) ∧
    ∀ c : Word, opcField c = 0x31 → (16 < (argField c).toNat ∨ rsvField c ≠ 0) → perform c s = .next (afterIllegal s)

/-! ## The pure functions -/

/-- R200: GFMul is the carry-less product reduced modulo x^8+x^4+x^3+x+1. -/
def Obligations.GfMulIsPolynomialProduct : Prop := ∀ a b : Byte, gfMul a b = polyMod (clProduct a b)

/-- R201: the laws of the multiplier. -/
def Obligations.GfMulLaws : Prop :=
  (∀ a b : Byte, gfMul a b = gfMul b a) ∧
  (∀ a b c : Byte, gfMul (gfMul a b) c = gfMul a (gfMul b c)) ∧
  (∀ a b c : Byte, gfMul a (b ^^^ c) = gfMul a b ^^^ gfMul a c) ∧
  (∀ a : Byte, gfMul a 0 = 0 ∧ gfMul a 1 = a) ∧
  ∀ a : Byte, a ≠ 0 → ∃! b : Byte, gfMul a b = 1

/-- R222: the table of R220 is the inverse in GF(2^8) followed by the affine map. Both are the spec's supply from general
knowledge (log 6). -/
def Obligations.SboxIsInverseThenAffine : Prop :=
  sboxTable 0 = affineMap 0 ∧ ∀ x b : Byte, gfMul x b = 1 → sboxTable x = affineMap b

/-- R301, R325, R340, R270: two TRANSPOSEs, four SHIFTROWS and two ADDRK r restore STATE, and RotWord four times is the
identity. -/
def Obligations.CommandsThatUndoThemselves : Prop :=
  ∀ s : State,
    runCommands [.transpose, .transpose] s = .next { s with lastCode := 0 } ∧
    runCommands [.shiftrows, .shiftrows, .shiftrows, .shiftrows] s = .next { s with lastCode := 0 } ∧
    (s.kv = true → ∀ r : Fin 15,
      runCommands [.addrk (BitVec.ofNat 8 r.val), .addrk (BitVec.ofNat 8 r.val)] s = .next { s with lastCode := 0 }) ∧
    ∀ v : Word, rotWord (rotWord (rotWord (rotWord v))) = v

/-- R346: with KV = 1 both step-by-step sequences leave exactly what ENCRYPT 16 leaves. -/
def Obligations.RoundsComposeToEncrypt : Prop :=
  ∀ s : State, s.kv = true →
    ∃ t, exec (.encrypt 16) s = .next t ∧
      runCommands (.addrk 0 :: ((List.range 13).map fun n => .round (BitVec.ofNat 8 (n + 1))) ++ [.finalround]) s = .next t ∧
      runCommands
        (.addrk 0 ::
          ((List.range 13).flatMap fun n =>
            [.subbytes, .shiftrows, .mixcolumns, .addrk (BitVec.ofNat 8 (n + 1))]) ++
          [.subbytes, .shiftrows, .addrk 14]) s = .next t

/-- R372: unpadding a padded sequence gives it back. -/
def Obligations.UnpadOfPad : Prop := ∀ d : List Byte, unpadSeq (padSeq d) = some d

/-- R347, R345: the known answer. Under the key 00..1f the block 00112233445566778899aabbccddeeff encrypts to
8ea2b7ca516745bfeafc49904b496089. A sanity statement. -/
def Obligations.CipherKnownAnswer : Prop :=
  cipher (keyExpansion (keyWords (Vector.ofFn fun k => BitVec.ofNat 8 k.val)))
      (Vector.ofFn fun k => BitVec.ofNat 8 (0x11 * k.val)) =
    blockOfWords #v[0x8EA2B7CA, 0x516745BF, 0xEAFC4990, 0x4B496089]

/-- R381: loading the final partial block of D and `PAD R` leaves the last 16 bytes of Pad(D); the blocks before it are D's.
The host's form is log 11. -/
def Obligations.PadCompletesTheMessage : Prop :=
  ∀ (s : State) (d : List Byte) (fill : Block), s.resetAsserted = false →
    (∃ t, runHost (ldState (d.drop (16 * (d.length / 16)) ++ fill.toList) ++ [issue (.pad (BitVec.ofNat 8 (d.length % 16)))]) s =
        .next (t, []) ∧ t.block.toList = (padSeq d).drop (16 * (d.length / 16))) ∧
    ∀ i : Nat, i < d.length / 16 → ((padSeq d).drop (16 * i)).take 16 = (d.drop (16 * i)).take 16

/-- R430, R435: the message's ciphertext has the padded length, and equal blocks of one padded message give equal blocks of
ciphertext. -/
def Obligations.EncryptMessageBlocks : Prop :=
  ∀ (w : Vector Word 60) (p : List Byte),
    (encryptMessage w p).length = 16 * (p.length / 16 + 1) ∧
    (∀ i : Nat, i < p.length / 16 + 1 →
      ((encryptMessage w p).drop (16 * i)).take 16 =
        (cipher w (blockOfBytes (((padSeq p).drop (16 * i)).take 16))).toList) ∧
    ∀ i j : Nat, i < p.length / 16 + 1 → j < p.length / 16 + 1 →
      ((padSeq p).drop (16 * i)).take 16 = ((padSeq p).drop (16 * j)).take 16 →
      ((encryptMessage w p).drop (16 * i)).take 16 = ((encryptMessage w p).drop (16 * j)).take 16

/-! ## Errors: codes, priority, what a failure changes (60_exceptions.md) -/

/-- R502, R505: every command word completes with the first code that applies, and ERR is set exactly when it is not OK. -/
def Obligations.ResultCodeByPriority : Prop :=
  ∀ (c : Word) (s : State),
    ∃ t, perform c s = .next t ∧
      t.lastCode =
        (if IllegalWord c then 1
         else if (opcField c = 0x02 ∨ opcField c = 0x10 ∨ opcField c = 0x14 ∨ opcField c = 0x15) ∧ s.kv = false then 5
         else if opcField c = 0x01 ∧ (argField c).toNat ≠ 32 then 2
         else if opcField c = 0x02 ∧ (argField c).toNat ≠ 16 then 3
         else if opcField c = 0x31 ∧ ¬ PaddingValid s.block (argField c).toNat then 4
         else 0) ∧
      t.err = (s.err || decide (t.lastCode ≠ 0))

/-- R503, R504: a failing command writes no data; INVALID_KEY_LENGTH clears KV, INVALID_PADDING clears PV and PADINFO. -/
def Obligations.FailingCommandWritesNoData : Prop :=
  ∀ (c : Word) (s t : State), perform c s = .next t → t.lastCode ≠ 0 →
    t = { s with
          lastCode := t.lastCode
          err := true
          kv := if t.lastCode = 2 then false else s.kv
          pv := if t.lastCode = 4 then false else s.pv
          padN := if t.lastCode = 4 then 0 else s.padN
          padKeep := if t.lastCode = 4 then 0 else s.padKeep }

/-- R501: the four commands that read the schedule fail without an engine, and no other command reads KV: with another value
there beforehand everything else comes out the same, and KV keeps that value or is overwritten alike. -/
def Obligations.KeyNotLoaded : Prop :=
  (∀ (i : Instr) (s : State), i.wellFormed = true → needsKey i = true → s.kv = false → exec i s = .next (afterNoKey s)) ∧
  ∀ (i : Instr) (s t : State) (b : Bool), needsKey i = false → exec i s = .next t →
    ∃ u, exec i { s with kv := b } = .next u ∧ u = { t with kv := u.kv } ∧ (u.kv = b ∨ u = t)

/-- R425, R505: ERR does not block execution: a command gives the same state with ERR set beforehand, but for ERR. -/
def Obligations.ErrDoesNotBlock : Prop :=
  ∀ (c : Word) (s t : State), perform c s = .next t → perform c { s with err := true } = .next { t with err := true }

/-! ## Whole-machine rules: who writes what, who reads what (10_state.md) -/

/-- R51, "written by commands": KEY, AUX_A, AUX_B and CFG by none; STATE by nine, AUX_R by five, W by EXPAND. -/
def Obligations.RegistersWrittenByCommands : Prop :=
  ∀ (c : Word) (s t : State), perform c s = .next t →
    t.key = s.key ∧ t.auxA = s.auxA ∧ t.auxB = s.auxB ∧ t.errie = s.errie ∧
    (t.state ≠ s.state →
      opcField c = 0x02 ∨ (0x10 ≤ (opcField c).toNat ∧ (opcField c).toNat ≤ 0x16) ∨ opcField c = 0x30) ∧
    (t.auxR ≠ s.auxR → 0x20 ≤ (opcField c).toNat ∧ (opcField c).toNat ≤ 0x24) ∧
    (t.w ≠ s.w → opcField c = 0x01)

/-- R51, "read by commands": no command but EXPAND depends on KEY; none but ENCRYPT, the commands 0x10..0x16, PAD and UNPAD on
STATE; none but ENCRYPT, ADDRK, ROUND and FINALROUND on W; none but the scalar commands on AUX_A; none but GFMUL on AUX_B; none
on AUX_R. With another value there beforehand, everything else comes out the same. -/
def Obligations.RegistersReadByCommands : Prop :=
  ∀ (c : Word) (s t : State), perform c s = .next t →
    (opcField c ≠ 0x01 → ∀ k, perform c { s with key := k } = .next { t with key := k }) ∧
    (opcField c ≠ 0x02 → ¬ (0x10 ≤ (opcField c).toNat ∧ (opcField c).toNat ≤ 0x16) → opcField c ≠ 0x30 → opcField c ≠ 0x31 →
      ∀ x, perform c { s with state := x } = .next { t with state := x }) ∧
    (opcField c ≠ 0x02 → opcField c ≠ 0x10 → opcField c ≠ 0x14 → opcField c ≠ 0x15 →
      ∀ w, ∃ u, perform c { s with w := w } = .next u ∧ u = { t with w := u.w } ∧ (u.w = w ∨ u = t)) ∧
    (¬ (0x20 ≤ (opcField c).toNat ∧ (opcField c).toNat ≤ 0x24) →
      ∀ a, perform c { s with auxA := a } = .next { t with auxA := a }) ∧
    (opcField c ≠ 0x20 → ∀ b, perform c { s with auxB := b } = .next { t with auxB := b }) ∧
    ∀ r, ∃ u, perform c { s with auxR := r } = .next u ∧ u = { t with auxR := u.auxR } ∧ (u.auxR = r ∨ u = t)

/-- R58, R263: over any step, W changes only by a successful EXPAND (to the expansion of KEY) or by reset, and KV only by an
EXPAND or by reset. The events are the model's list (log 1, log 4). -/
def Obligations.ScheduleWrittenOnlyByExpand : Prop :=
  ∀ s t : State, step s = .next t →
    (t.w ≠ s.w →
      (∃ es, s.pending = .access (.write 0x000 4 0x00002001) :: es ∧ t.w = keyExpansion s.key ∧ t.kv = true) ∨
      ∃ es, s.pending = .assertReset :: es ∨ s.pending = .releaseReset :: es) ∧
    (t.kv ≠ s.kv →
      (∃ c es, s.pending = .access (.write 0x000 4 c) :: es ∧ opcField c = 0x01 ∧ rsvField c = 0 ∧
        (t.kv = true ↔ argField c = 32)) ∨
      ∃ es, s.pending = .assertReset :: es ∨ s.pending = .releaseReset :: es)

/-- R59: over any step, PV and PADINFO change only by a legal UNPAD or by reset. The events are the model's list (log 1,
log 4). -/
def Obligations.PadInfoWrittenOnlyByUnpad : Prop :=
  ∀ s t : State, step s = .next t → (t.pv ≠ s.pv ∨ t.padN ≠ s.padN ∨ t.padKeep ≠ s.padKeep) →
    (∃ c es, s.pending = .access (.write 0x000 4 c) :: es ∧ opcField c = 0x31 ∧ rsvField c = 0 ∧ (argField c).toNat ≤ 16) ∨
    ∃ es, s.pending = .assertReset :: es ∨ s.pending = .releaseReset :: es

/-- R505: ERR is sticky: only a write to STATUS with bit 2 set, or reset, clears it. The events are the model's list (log 1,
log 4). -/
def Obligations.ErrClearedOnlyByHost : Prop :=
  ∀ s t : State, step s = .next t → s.err = true → t.err = false →
    (∃ v es, s.pending = .access (.write 0x004 4 v) :: es ∧ v.getLsbD 2 = true) ∨
    ∃ es, s.pending = .assertReset :: es ∨ s.pending = .releaseReset :: es

/-- R602: until an `EXPAND 32` there is no engine and every schedule word reads 0. The events are the model's list (log 1). -/
def Obligations.NoEngineUntilExpand : Prop :=
  ∀ s t : State, s.kv = false → s.w = Vector.replicate 60 0 → step s = .next t →
    (t.kv = false ∧ t.w = Vector.replicate 60 0 ∧ ∀ i : Fin 60, memRead (BitVec.ofNat 12 (0x100 + 4 * i.val)) 4 t = some 0) ∨
    ∃ es, s.pending = .access (.write 0x000 4 0x00002001) :: es

/-! ## The bus (20_memory.md) -/

/-- R103, R108: what a read of every register returns. -/
def Obligations.MemReadTable : Prop :=
  ∀ s : State,
    memRead 0x000 4 s = some 0 ∧ memRead 0x004 4 s = some s.statusWord ∧ memRead 0x008 4 s = some s.cfgWord ∧
    memRead 0x00C 4 s = some s.padInfoWord ∧ memRead 0x040 4 s = some s.auxA ∧ memRead 0x044 4 s = some s.auxB ∧
    memRead 0x048 4 s = some s.auxR ∧
    (∀ j : Fin 8, memRead (BitVec.ofNat 12 (0x010 + 4 * j.val)) 4 s = some s.key[j]) ∧
    (∀ j : Fin 4, memRead (BitVec.ofNat 12 (0x030 + 4 * j.val)) 4 s = some s.state[j]) ∧
    ∀ i : Fin 60, memRead (BitVec.ofNat 12 (0x100 + 4 * i.val)) 4 s = some s.w[i]

/-- R104, R62: what a write of every writable register does; CMD performs the command. -/
def Obligations.MemWriteTable : Prop :=
  ∀ (s : State) (v : Word),
    memWrite 0x000 4 v s = perform v s ∧
    memWrite 0x004 4 v s = .next { s with err := if v.getLsbD 2 then false else s.err } ∧
    memWrite 0x008 4 v s = .next { s with errie := v.getLsbD 0 } ∧
    memWrite 0x040 4 v s = .next { s with auxA := v } ∧ memWrite 0x044 4 v s = .next { s with auxB := v } ∧
    (∀ j : Fin 8, memWrite (BitVec.ofNat 12 (0x010 + 4 * j.val)) 4 v s = .next { s with key := s.key.set j v }) ∧
    ∀ j : Fin 4, memWrite (BitVec.ofNat 12 (0x030 + 4 * j.val)) 4 v s = .next { s with state := s.state.set j v }

/-- R102, R104, R105, R108: exactly which accesses are bus errors. -/
def Obligations.BusErrorsExactly : Prop :=
  ∀ (a : Addr) (size : Nat) (v : Word) (s : State),
    (memRead a size s = none ↔
      size ≠ 4 ∨ a.toNat % 4 ≠ 0 ∨ (0x04C ≤ a.toNat ∧ a.toNat ≤ 0x0FF) ∨ 0x1F0 ≤ a.toNat) ∧
    (memWrite a size v s = .fault (.busError (.write a size v)) ↔
      size ≠ 4 ∨ a.toNat % 4 ≠ 0 ∨ a.toNat = 0x00C ∨ (0x048 ≤ a.toNat ∧ a.toNat ≤ 0x1EC) ∨ 0x1F0 ≤ a.toNat)

/-- R105: a bus error changes no register, and a read that ends in one returns data 0. That the step itself stops is R105's
own treatment; `stepPastBusError` is the host that goes on (log 2). -/
def Obligations.BusErrorChangesNothing : Prop :=
  ∀ (s : State) (a : BusAccess) (es : List HostEvent),
    s.pending = .access a :: es → s.resetAsserted = false → a.accepted = false →
    step s = .fault (.busError a) ∧
    ∃ t, stepPastBusError s = .next t ∧ t = { s with pending := es, response := t.response } ∧ t.irq = s.irq ∧
      t.response = some .busError ∧ Response.readData .busError = 0

/-- R111, R113: after a write to KEYj, STATEj, AUX_A or AUX_B a read returns the written value there and the earlier value
everywhere else. -/
def Obligations.ReadAfterWrite : Prop :=
  ∀ (s t : State) (a : Addr) (v : Word),
    ((0x010 ≤ a.toNat ∧ a.toNat ≤ 0x044 ∧ a.toNat % 4 = 0)) → memWrite a 4 v s = .next t →
    ∀ b : Addr, memRead b 4 t = if b = a then some v else memRead b 4 s

/-- R103, R60, R113: a read step returns the register's value and changes no register. `pending` and `response` are the
model's own fields (log 1, log 3). -/
def Obligations.ReadsHaveNoSideEffect : Prop :=
  ∀ (s : State) (a : Addr) (size : Nat) (v : Word) (es : List HostEvent),
    s.pending = .access (.read a size) :: es → s.resetAsserted = false → memRead a size s = some v →
    step s = .next { s with pending := es, response := some (.data v) }

/-- R61, R63, R64: the words software reads, bit by bit; reserved bits read 0. -/
def Obligations.RegisterLayouts : Prop :=
  ∀ (s : State) (k : Nat),
    s.statusWord.getLsbD k =
      (if k = 0 then s.kv else if k = 1 then s.pv else if k = 2 then s.err
       else if 8 ≤ k ∧ k ≤ 11 then s.lastCode.getLsbD (k - 8) else false) ∧
    s.cfgWord.getLsbD k = (if k = 0 then s.errie else false) ∧
    s.padInfoWord.getLsbD k =
      (if k ≤ 4 then s.padN.getLsbD k else if 8 ≤ k ∧ k ≤ 12 then s.padKeep.getLsbD (k - 8) else false)

/-- R510, R507: irq over every kind of access that completes: a failing command raises it when enabled, setting ERRIE while
ERR = 1 asserts it at once, CLRERR drops it, a write to KEYj, STATEj, AUX_A or AUX_B (0x010 to 0x044) and a read leave it; and
reset drops it. An access that is a bus error leaves it too: `BusErrorChangesNothing`. -/
def Obligations.IrqLevel : Prop :=
  ∀ s : State,
    (∀ (c : Word) (t : State), perform c s = .next t → t.irq = (s.errie && (s.err || decide (t.lastCode ≠ 0)))) ∧
    (∀ v : Word, ∃ t, memWrite 0x008 4 v s = .next t ∧ t.irq = (s.err && v.getLsbD 0)) ∧
    (∀ v : Word, ∃ t, memWrite 0x004 4 v s = .next t ∧ t.irq = (s.irq && !v.getLsbD 2)) ∧
    (∀ (a : Addr) (v : Word), 0x010 ≤ a.toNat → a.toNat ≤ 0x044 → a.toNat % 4 = 0 →
      ∃ t, memWrite a 4 v s = .next t ∧ t.irq = s.irq) ∧
    (∀ level : Bool, (s.applyReset level).irq = false) ∧
    ∀ (a : Addr) (size : Nat) (t : State), performAccess s (.read a size) = .next t → t.irq = s.irq

/-! ## Reset, steps and the invariant (70_reset_and_hazards.md) -/

/-- R600: the values reset leaves. -/
def Obligations.ResetValues : Prop :=
  (∀ j : Fin 8, State.reset.key[j] = 0) ∧ (∀ j : Fin 4, State.reset.state[j] = 0) ∧ (∀ i : Fin 60, State.reset.w[i] = 0) ∧
  State.reset.auxA = 0 ∧ State.reset.auxB = 0 ∧ State.reset.auxR = 0 ∧
  State.reset.statusWord = 0x00000000 ∧ State.reset.cfgWord = 0 ∧ State.reset.padInfoWord = 0 ∧ State.reset.irq = false

/-- R600, R601: from any state, asserting reset gives every element its reset value, and so does releasing it. That an
access meanwhile is refused by the model is log 4. -/
def Obligations.ResetInput : Prop :=
  ∀ (s : State) (es : List HostEvent),
    (s.pending = .assertReset :: es → step s = .next { State.reset with resetAsserted := true, pending := es }) ∧
    (s.pending = .releaseReset :: es → s.resetAsserted = true → step s = .next { State.reset with pending := es }) ∧
    (∀ a, s.pending = .access a :: es → s.resetAsserted = true → step s = .refused (.accessDuringReset a))

/-- R65, R110, R152: when the next access writes to CMD a word that decodes to i, the step is exec of i, after the access has
left the host's list and its response is set (the model's own fields, log 1 and log 3). -/
def Obligations.StepRunsTheDecodedCommand : Prop :=
  ∀ (s : State) (c : Word) (i : Instr) (es : List HostEvent),
    s.pending = .access (.write 0x000 4 c) :: es → s.resetAsserted = false → decode c = .ok i →
    step s = exec i { s with pending := es, response := some .done }

/-- R100, R105, R601: a step answers a next state exactly when the host's event is one it may make; that it stops otherwise is
the model's choice (log 2, log 4). -/
def Obligations.StepCompletesForEveryAcceptedEvent : Prop :=
  ∀ s : State, s.hostWellBehaved = true ↔ ∃ t, step s = .next t

/-- R600: the invariant holds at reset. -/
def Obligations.ResetMeetsInvariant : Prop := State.reset.Inv

/-- R500, R64, R59, R58, R600: every step keeps the invariant: LASTCODE at most 5, PADINFO's fields at most 16 and 0 unless PV,
W the expansion of W[0..7] when KV, and every element at its reset value while reset is asserted (log 4, log 13). -/
def Obligations.StepKeepsInvariant : Prop := ∀ s t : State, s.Inv → step s = .next t → t.Inv

/-! ## The host procedures (44_control_and_host.md) -/

/-- A host program run event by event is the machine's own run of that list of pending events, in order (R110; log 1, log 11). -/
def Obligations.HostProgramIsARunOfSteps : Prop :=
  ∀ (es rest : List HostEvent) (s t : State) (reads : List Word),
    runHost es (s.withPending rest) = .next (t, reads) →
    Host.Core.run Sys2Proof.core es.length (s.withPending (es ++ rest)) = .next t

/-- R433: construction succeeds exactly for a 32-byte key. The procedure's form is log 11. -/
def Obligations.ConstructProcedure : Prop :=
  ∀ (s : State) (k : List Byte), s.resetAsserted = false →
    ∃ t status, runHost (constructProgram k) s = .next (t, [status]) ∧ status = t.statusWord ∧
      (k.length = 32 → t.lastCode = 0 ∧ t.kv = true ∧ t.w = keyExpansion (Vector.ofFn fun j => wordAt k j.val)) ∧
      (k.length ≠ 32 → t.lastCode = 2 ∧ t.kv = false ∧ t.w = s.w)

/-- R431: with an engine and no earlier error the procedure returns EncryptMessage(P) of R430, whatever the fill bytes
(log 11). -/
def Obligations.EncryptMessageProcedure : Prop :=
  ∀ (s : State) (p : List Byte) (fill : Block), s.kv = true → s.err = false → s.resetAsserted = false →
    ∃ t reads, runHost (encryptMessageProgram p fill) s = .next (t, reads) ∧
      encryptMessageResult reads = some (encryptMessage s.w p) ∧ t.w = s.w ∧ t.key = s.key ∧ t.err = false

/-- R432, R387: the procedure returns Unpad(D) of R371, whatever the fill bytes (log 11). -/
def Obligations.UnpadBufferProcedure : Prop :=
  ∀ (s : State) (d : List Byte) (fill : Block), s.resetAsserted = false →
    ∃ t reads, runHost (unpadBufferProgram d fill) s = .next (t, reads) ∧ unpadBufferResult d reads = unpadSeq d
end

