-- ==== Sys2Proof/Laws/State.lean ====
section
/-! SUPPORT. One lemma per field per update of the state, each true by definition, so that no proof unfolds a record update. -/

namespace Sys2Proof.Machine

variable (s : State)

/-! `State.complete`: the end of every command (R505). -/

@[simp] theorem State.complete_key (c : ResultCode) : (s.complete c).key = s.key := rfl
@[simp] theorem State.complete_state (c : ResultCode) : (s.complete c).state = s.state := rfl
@[simp] theorem State.complete_auxA (c : ResultCode) : (s.complete c).auxA = s.auxA := rfl
@[simp] theorem State.complete_auxB (c : ResultCode) : (s.complete c).auxB = s.auxB := rfl
@[simp] theorem State.complete_auxR (c : ResultCode) : (s.complete c).auxR = s.auxR := rfl
@[simp] theorem State.complete_w (c : ResultCode) : (s.complete c).w = s.w := rfl
@[simp] theorem State.complete_kv (c : ResultCode) : (s.complete c).kv = s.kv := rfl
@[simp] theorem State.complete_pv (c : ResultCode) : (s.complete c).pv = s.pv := rfl
@[simp] theorem State.complete_err (c : ResultCode) : (s.complete c).err = (s.err || decide (c ≠ .ok)) := rfl
@[simp] theorem State.complete_lastCode (c : ResultCode) : (s.complete c).lastCode = c.bits := rfl
@[simp] theorem State.complete_errie (c : ResultCode) : (s.complete c).errie = s.errie := rfl
@[simp] theorem State.complete_padN (c : ResultCode) : (s.complete c).padN = s.padN := rfl
@[simp] theorem State.complete_padKeep (c : ResultCode) : (s.complete c).padKeep = s.padKeep := rfl
@[simp] theorem State.complete_resetAsserted (c : ResultCode) : (s.complete c).resetAsserted = s.resetAsserted := rfl
@[simp] theorem State.complete_pending (c : ResultCode) : (s.complete c).pending = s.pending := rfl
@[simp] theorem State.complete_response (c : ResultCode) : (s.complete c).response = s.response := rfl

/-! `State.writeStatus`: the host's write to STATUS (R62). -/

@[simp] theorem State.writeStatus_key (v : Word) : (s.writeStatus v).key = s.key := rfl
@[simp] theorem State.writeStatus_state (v : Word) : (s.writeStatus v).state = s.state := rfl
@[simp] theorem State.writeStatus_auxA (v : Word) : (s.writeStatus v).auxA = s.auxA := rfl
@[simp] theorem State.writeStatus_auxB (v : Word) : (s.writeStatus v).auxB = s.auxB := rfl
@[simp] theorem State.writeStatus_auxR (v : Word) : (s.writeStatus v).auxR = s.auxR := rfl
@[simp] theorem State.writeStatus_w (v : Word) : (s.writeStatus v).w = s.w := rfl
@[simp] theorem State.writeStatus_kv (v : Word) : (s.writeStatus v).kv = s.kv := rfl
@[simp] theorem State.writeStatus_pv (v : Word) : (s.writeStatus v).pv = s.pv := rfl
@[simp] theorem State.writeStatus_err (v : Word) : (s.writeStatus v).err = (s.err && !v.getLsbD 2) := rfl
@[simp] theorem State.writeStatus_lastCode (v : Word) : (s.writeStatus v).lastCode = s.lastCode := rfl
@[simp] theorem State.writeStatus_errie (v : Word) : (s.writeStatus v).errie = s.errie := rfl
@[simp] theorem State.writeStatus_padN (v : Word) : (s.writeStatus v).padN = s.padN := rfl
@[simp] theorem State.writeStatus_padKeep (v : Word) : (s.writeStatus v).padKeep = s.padKeep := rfl
@[simp] theorem State.writeStatus_resetAsserted (v : Word) : (s.writeStatus v).resetAsserted = s.resetAsserted := rfl
@[simp] theorem State.writeStatus_pending (v : Word) : (s.writeStatus v).pending = s.pending := rfl
@[simp] theorem State.writeStatus_response (v : Word) : (s.writeStatus v).response = s.response := rfl

/-! `State.writeBlock`: a write of STATE (R10). -/

@[simp] theorem State.writeBlock_key (b : Block) : (s.writeBlock b).key = s.key := rfl
@[simp] theorem State.writeBlock_state (b : Block) : (s.writeBlock b).state = wordsOfBlock b := rfl
@[simp] theorem State.writeBlock_auxA (b : Block) : (s.writeBlock b).auxA = s.auxA := rfl
@[simp] theorem State.writeBlock_auxB (b : Block) : (s.writeBlock b).auxB = s.auxB := rfl
@[simp] theorem State.writeBlock_auxR (b : Block) : (s.writeBlock b).auxR = s.auxR := rfl
@[simp] theorem State.writeBlock_w (b : Block) : (s.writeBlock b).w = s.w := rfl
@[simp] theorem State.writeBlock_kv (b : Block) : (s.writeBlock b).kv = s.kv := rfl
@[simp] theorem State.writeBlock_pv (b : Block) : (s.writeBlock b).pv = s.pv := rfl
@[simp] theorem State.writeBlock_err (b : Block) : (s.writeBlock b).err = s.err := rfl
@[simp] theorem State.writeBlock_lastCode (b : Block) : (s.writeBlock b).lastCode = s.lastCode := rfl
@[simp] theorem State.writeBlock_errie (b : Block) : (s.writeBlock b).errie = s.errie := rfl
@[simp] theorem State.writeBlock_padN (b : Block) : (s.writeBlock b).padN = s.padN := rfl
@[simp] theorem State.writeBlock_padKeep (b : Block) : (s.writeBlock b).padKeep = s.padKeep := rfl
@[simp] theorem State.writeBlock_resetAsserted (b : Block) : (s.writeBlock b).resetAsserted = s.resetAsserted := rfl
@[simp] theorem State.writeBlock_pending (b : Block) : (s.writeBlock b).pending = s.pending := rfl
@[simp] theorem State.writeBlock_response (b : Block) : (s.writeBlock b).response = s.response := rfl

/-! `State.setAuxR`: a scalar result (R10). -/

@[simp] theorem State.setAuxR_key (v : Word) : (s.setAuxR v).key = s.key := rfl
@[simp] theorem State.setAuxR_state (v : Word) : (s.setAuxR v).state = s.state := rfl
@[simp] theorem State.setAuxR_auxA (v : Word) : (s.setAuxR v).auxA = s.auxA := rfl
@[simp] theorem State.setAuxR_auxB (v : Word) : (s.setAuxR v).auxB = s.auxB := rfl
@[simp] theorem State.setAuxR_auxR (v : Word) : (s.setAuxR v).auxR = v := rfl
@[simp] theorem State.setAuxR_w (v : Word) : (s.setAuxR v).w = s.w := rfl
@[simp] theorem State.setAuxR_kv (v : Word) : (s.setAuxR v).kv = s.kv := rfl
@[simp] theorem State.setAuxR_pv (v : Word) : (s.setAuxR v).pv = s.pv := rfl
@[simp] theorem State.setAuxR_err (v : Word) : (s.setAuxR v).err = s.err := rfl
@[simp] theorem State.setAuxR_lastCode (v : Word) : (s.setAuxR v).lastCode = s.lastCode := rfl
@[simp] theorem State.setAuxR_errie (v : Word) : (s.setAuxR v).errie = s.errie := rfl
@[simp] theorem State.setAuxR_padN (v : Word) : (s.setAuxR v).padN = s.padN := rfl
@[simp] theorem State.setAuxR_padKeep (v : Word) : (s.setAuxR v).padKeep = s.padKeep := rfl
@[simp] theorem State.setAuxR_resetAsserted (v : Word) : (s.setAuxR v).resetAsserted = s.resetAsserted := rfl
@[simp] theorem State.setAuxR_pending (v : Word) : (s.setAuxR v).pending = s.pending := rfl
@[simp] theorem State.setAuxR_response (v : Word) : (s.setAuxR v).response = s.response := rfl

/-! `State.loadSchedule`: a successful EXPAND (R262). -/

@[simp] theorem State.loadSchedule_key (x : Vector Word 60) : (s.loadSchedule x).key = s.key := rfl
@[simp] theorem State.loadSchedule_state (x : Vector Word 60) : (s.loadSchedule x).state = s.state := rfl
@[simp] theorem State.loadSchedule_auxA (x : Vector Word 60) : (s.loadSchedule x).auxA = s.auxA := rfl
@[simp] theorem State.loadSchedule_auxB (x : Vector Word 60) : (s.loadSchedule x).auxB = s.auxB := rfl
@[simp] theorem State.loadSchedule_auxR (x : Vector Word 60) : (s.loadSchedule x).auxR = s.auxR := rfl
@[simp] theorem State.loadSchedule_w (x : Vector Word 60) : (s.loadSchedule x).w = x := rfl
@[simp] theorem State.loadSchedule_kv (x : Vector Word 60) : (s.loadSchedule x).kv = true := rfl
@[simp] theorem State.loadSchedule_pv (x : Vector Word 60) : (s.loadSchedule x).pv = s.pv := rfl
@[simp] theorem State.loadSchedule_err (x : Vector Word 60) : (s.loadSchedule x).err = s.err := rfl
@[simp] theorem State.loadSchedule_lastCode (x : Vector Word 60) : (s.loadSchedule x).lastCode = s.lastCode := rfl
@[simp] theorem State.loadSchedule_errie (x : Vector Word 60) : (s.loadSchedule x).errie = s.errie := rfl
@[simp] theorem State.loadSchedule_padN (x : Vector Word 60) : (s.loadSchedule x).padN = s.padN := rfl
@[simp] theorem State.loadSchedule_padKeep (x : Vector Word 60) : (s.loadSchedule x).padKeep = s.padKeep := rfl
@[simp] theorem State.loadSchedule_resetAsserted (x : Vector Word 60) : (s.loadSchedule x).resetAsserted = s.resetAsserted := rfl
@[simp] theorem State.loadSchedule_pending (x : Vector Word 60) : (s.loadSchedule x).pending = s.pending := rfl
@[simp] theorem State.loadSchedule_response (x : Vector Word 60) : (s.loadSchedule x).response = s.response := rfl

/-! `State.dropEngine`: a failed EXPAND (R504). -/

@[simp] theorem State.dropEngine_key : (s.dropEngine).key = s.key := rfl
@[simp] theorem State.dropEngine_state : (s.dropEngine).state = s.state := rfl
@[simp] theorem State.dropEngine_auxA : (s.dropEngine).auxA = s.auxA := rfl
@[simp] theorem State.dropEngine_auxB : (s.dropEngine).auxB = s.auxB := rfl
@[simp] theorem State.dropEngine_auxR : (s.dropEngine).auxR = s.auxR := rfl
@[simp] theorem State.dropEngine_w : (s.dropEngine).w = s.w := rfl
@[simp] theorem State.dropEngine_kv : (s.dropEngine).kv = false := rfl
@[simp] theorem State.dropEngine_pv : (s.dropEngine).pv = s.pv := rfl
@[simp] theorem State.dropEngine_err : (s.dropEngine).err = s.err := rfl
@[simp] theorem State.dropEngine_lastCode : (s.dropEngine).lastCode = s.lastCode := rfl
@[simp] theorem State.dropEngine_errie : (s.dropEngine).errie = s.errie := rfl
@[simp] theorem State.dropEngine_padN : (s.dropEngine).padN = s.padN := rfl
@[simp] theorem State.dropEngine_padKeep : (s.dropEngine).padKeep = s.padKeep := rfl
@[simp] theorem State.dropEngine_resetAsserted : (s.dropEngine).resetAsserted = s.resetAsserted := rfl
@[simp] theorem State.dropEngine_pending : (s.dropEngine).pending = s.pending := rfl
@[simp] theorem State.dropEngine_response : (s.dropEngine).response = s.response := rfl

/-! `State.setPadInfo`: a successful UNPAD (R385). -/

@[simp] theorem State.setPadInfo_key (n keep : Nat) : (s.setPadInfo n keep).key = s.key := rfl
@[simp] theorem State.setPadInfo_state (n keep : Nat) : (s.setPadInfo n keep).state = s.state := rfl
@[simp] theorem State.setPadInfo_auxA (n keep : Nat) : (s.setPadInfo n keep).auxA = s.auxA := rfl
@[simp] theorem State.setPadInfo_auxB (n keep : Nat) : (s.setPadInfo n keep).auxB = s.auxB := rfl
@[simp] theorem State.setPadInfo_auxR (n keep : Nat) : (s.setPadInfo n keep).auxR = s.auxR := rfl
@[simp] theorem State.setPadInfo_w (n keep : Nat) : (s.setPadInfo n keep).w = s.w := rfl
@[simp] theorem State.setPadInfo_kv (n keep : Nat) : (s.setPadInfo n keep).kv = s.kv := rfl
@[simp] theorem State.setPadInfo_pv (n keep : Nat) : (s.setPadInfo n keep).pv = true := rfl
@[simp] theorem State.setPadInfo_err (n keep : Nat) : (s.setPadInfo n keep).err = s.err := rfl
@[simp] theorem State.setPadInfo_lastCode (n keep : Nat) : (s.setPadInfo n keep).lastCode = s.lastCode := rfl
@[simp] theorem State.setPadInfo_errie (n keep : Nat) : (s.setPadInfo n keep).errie = s.errie := rfl
@[simp] theorem State.setPadInfo_padN (n keep : Nat) : (s.setPadInfo n keep).padN = BitVec.ofNat 5 n := rfl
@[simp] theorem State.setPadInfo_padKeep (n keep : Nat) : (s.setPadInfo n keep).padKeep = BitVec.ofNat 5 keep := rfl
@[simp] theorem State.setPadInfo_resetAsserted (n keep : Nat) : (s.setPadInfo n keep).resetAsserted = s.resetAsserted := rfl
@[simp] theorem State.setPadInfo_pending (n keep : Nat) : (s.setPadInfo n keep).pending = s.pending := rfl
@[simp] theorem State.setPadInfo_response (n keep : Nat) : (s.setPadInfo n keep).response = s.response := rfl

/-! `State.clearPadInfo`: a failed UNPAD (R504). -/

@[simp] theorem State.clearPadInfo_key : (s.clearPadInfo).key = s.key := rfl
@[simp] theorem State.clearPadInfo_state : (s.clearPadInfo).state = s.state := rfl
@[simp] theorem State.clearPadInfo_auxA : (s.clearPadInfo).auxA = s.auxA := rfl
@[simp] theorem State.clearPadInfo_auxB : (s.clearPadInfo).auxB = s.auxB := rfl
@[simp] theorem State.clearPadInfo_auxR : (s.clearPadInfo).auxR = s.auxR := rfl
@[simp] theorem State.clearPadInfo_w : (s.clearPadInfo).w = s.w := rfl
@[simp] theorem State.clearPadInfo_kv : (s.clearPadInfo).kv = s.kv := rfl
@[simp] theorem State.clearPadInfo_pv : (s.clearPadInfo).pv = false := rfl
@[simp] theorem State.clearPadInfo_err : (s.clearPadInfo).err = s.err := rfl
@[simp] theorem State.clearPadInfo_lastCode : (s.clearPadInfo).lastCode = s.lastCode := rfl
@[simp] theorem State.clearPadInfo_errie : (s.clearPadInfo).errie = s.errie := rfl
@[simp] theorem State.clearPadInfo_padN : (s.clearPadInfo).padN = 0 := rfl
@[simp] theorem State.clearPadInfo_padKeep : (s.clearPadInfo).padKeep = 0 := rfl
@[simp] theorem State.clearPadInfo_resetAsserted : (s.clearPadInfo).resetAsserted = s.resetAsserted := rfl
@[simp] theorem State.clearPadInfo_pending : (s.clearPadInfo).pending = s.pending := rfl
@[simp] theorem State.clearPadInfo_response : (s.clearPadInfo).response = s.response := rfl

/-! `State.respond`: the response to an access (log 3). -/

@[simp] theorem State.respond_key (r : Response) : (s.respond r).key = s.key := rfl
@[simp] theorem State.respond_state (r : Response) : (s.respond r).state = s.state := rfl
@[simp] theorem State.respond_auxA (r : Response) : (s.respond r).auxA = s.auxA := rfl
@[simp] theorem State.respond_auxB (r : Response) : (s.respond r).auxB = s.auxB := rfl
@[simp] theorem State.respond_auxR (r : Response) : (s.respond r).auxR = s.auxR := rfl
@[simp] theorem State.respond_w (r : Response) : (s.respond r).w = s.w := rfl
@[simp] theorem State.respond_kv (r : Response) : (s.respond r).kv = s.kv := rfl
@[simp] theorem State.respond_pv (r : Response) : (s.respond r).pv = s.pv := rfl
@[simp] theorem State.respond_err (r : Response) : (s.respond r).err = s.err := rfl
@[simp] theorem State.respond_lastCode (r : Response) : (s.respond r).lastCode = s.lastCode := rfl
@[simp] theorem State.respond_errie (r : Response) : (s.respond r).errie = s.errie := rfl
@[simp] theorem State.respond_padN (r : Response) : (s.respond r).padN = s.padN := rfl
@[simp] theorem State.respond_padKeep (r : Response) : (s.respond r).padKeep = s.padKeep := rfl
@[simp] theorem State.respond_resetAsserted (r : Response) : (s.respond r).resetAsserted = s.resetAsserted := rfl
@[simp] theorem State.respond_pending (r : Response) : (s.respond r).pending = s.pending := rfl
@[simp] theorem State.respond_response (r : Response) : (s.respond r).response = some r := rfl

/-! `State.withPending`: the host's list moves on (log 1). -/

@[simp] theorem State.withPending_key (es : List HostEvent) : (s.withPending es).key = s.key := rfl
@[simp] theorem State.withPending_state (es : List HostEvent) : (s.withPending es).state = s.state := rfl
@[simp] theorem State.withPending_auxA (es : List HostEvent) : (s.withPending es).auxA = s.auxA := rfl
@[simp] theorem State.withPending_auxB (es : List HostEvent) : (s.withPending es).auxB = s.auxB := rfl
@[simp] theorem State.withPending_auxR (es : List HostEvent) : (s.withPending es).auxR = s.auxR := rfl
@[simp] theorem State.withPending_w (es : List HostEvent) : (s.withPending es).w = s.w := rfl
@[simp] theorem State.withPending_kv (es : List HostEvent) : (s.withPending es).kv = s.kv := rfl
@[simp] theorem State.withPending_pv (es : List HostEvent) : (s.withPending es).pv = s.pv := rfl
@[simp] theorem State.withPending_err (es : List HostEvent) : (s.withPending es).err = s.err := rfl
@[simp] theorem State.withPending_lastCode (es : List HostEvent) : (s.withPending es).lastCode = s.lastCode := rfl
@[simp] theorem State.withPending_errie (es : List HostEvent) : (s.withPending es).errie = s.errie := rfl
@[simp] theorem State.withPending_padN (es : List HostEvent) : (s.withPending es).padN = s.padN := rfl
@[simp] theorem State.withPending_padKeep (es : List HostEvent) : (s.withPending es).padKeep = s.padKeep := rfl
@[simp] theorem State.withPending_resetAsserted (es : List HostEvent) : (s.withPending es).resetAsserted = s.resetAsserted := rfl
@[simp] theorem State.withPending_pending (es : List HostEvent) : (s.withPending es).pending = es := rfl
@[simp] theorem State.withPending_response (es : List HostEvent) : (s.withPending es).response = s.response := rfl

/-! `State.applyReset`: the reset input (R600). -/

@[simp] theorem State.applyReset_key (l : Bool) : (s.applyReset l).key = Vector.replicate 8 0 := rfl
@[simp] theorem State.applyReset_state (l : Bool) : (s.applyReset l).state = Vector.replicate 4 0 := rfl
@[simp] theorem State.applyReset_auxA (l : Bool) : (s.applyReset l).auxA = 0 := rfl
@[simp] theorem State.applyReset_auxB (l : Bool) : (s.applyReset l).auxB = 0 := rfl
@[simp] theorem State.applyReset_auxR (l : Bool) : (s.applyReset l).auxR = 0 := rfl
@[simp] theorem State.applyReset_w (l : Bool) : (s.applyReset l).w = Vector.replicate 60 0 := rfl
@[simp] theorem State.applyReset_kv (l : Bool) : (s.applyReset l).kv = false := rfl
@[simp] theorem State.applyReset_pv (l : Bool) : (s.applyReset l).pv = false := rfl
@[simp] theorem State.applyReset_err (l : Bool) : (s.applyReset l).err = false := rfl
@[simp] theorem State.applyReset_lastCode (l : Bool) : (s.applyReset l).lastCode = 0 := rfl
@[simp] theorem State.applyReset_errie (l : Bool) : (s.applyReset l).errie = false := rfl
@[simp] theorem State.applyReset_padN (l : Bool) : (s.applyReset l).padN = 0 := rfl
@[simp] theorem State.applyReset_padKeep (l : Bool) : (s.applyReset l).padKeep = 0 := rfl
@[simp] theorem State.applyReset_resetAsserted (l : Bool) : (s.applyReset l).resetAsserted = l := rfl
@[simp] theorem State.applyReset_pending (l : Bool) : (s.applyReset l).pending = s.pending := rfl
@[simp] theorem State.applyReset_response (l : Bool) : (s.applyReset l).response = none := rfl

end Sys2Proof.Machine
end

