-- ==== Sys2Proof/Laws/Ops.lean ====
section
/-! SUPPORT. What each shared operation can do, said once: how a command ends, the schedule's guard, the storage writes. -/

namespace Sys2Proof.Machine

variable (s : State)

/-- A command that finishes leaves the state with LASTCODE 0 (R505). -/
@[simp] theorem State.finishOk_eq : s.finishOk = .next { s with lastCode := 0 } := by
  simp [State.finishOk, State.complete, ResultCode.bits]

/-- A command that fails leaves the state with the code in LASTCODE and ERR set (R505). -/
theorem State.raiseErr_eq {code : ResultCode} (h : code ≠ .ok) :
    s.raiseErr code = .next { s with lastCode := code.bits, err := true } := by
  simp [State.raiseErr, State.complete, h]

@[simp] theorem State.raiseErr_illegalCommand :
    s.raiseErr .illegalCommand = .next { s with lastCode := 1, err := true } := s.raiseErr_eq (by decide)

@[simp] theorem State.raiseErr_invalidKeyLength :
    s.raiseErr .invalidKeyLength = .next { s with lastCode := 2, err := true } := s.raiseErr_eq (by decide)

@[simp] theorem State.raiseErr_invalidBlockLength :
    s.raiseErr .invalidBlockLength = .next { s with lastCode := 3, err := true } := s.raiseErr_eq (by decide)

@[simp] theorem State.raiseErr_invalidPadding :
    s.raiseErr .invalidPadding = .next { s with lastCode := 4, err := true } := s.raiseErr_eq (by decide)

@[simp] theorem State.raiseErr_keyNotLoaded :
    s.raiseErr .keyNotLoaded = .next { s with lastCode := 5, err := true } := s.raiseErr_eq (by decide)

/-- With an engine the guard lets the command run (R501). -/
theorem State.requireKey_loaded {s : State} (h : s.kv = true) (body : Result) : s.requireKey body = body := by
  simp [State.requireKey, h]

/-- Without an engine the guard fails the command (R501). -/
theorem State.requireKey_unloaded {s : State} (h : s.kv = false) (body : Result) :
    s.requireKey body = .next { s with lastCode := 5, err := true } := by
  simp [State.requireKey, h]

/-- The registers no bus write reaches (R104). -/
theorem State.writeReg_eq_none {v : Word} {r : Reg} :
    s.writeReg v r = none ↔ r = .cmd ∨ r = .padInfo ∨ r = .auxR ∨ ∃ i, r = .rk i := by
  cases r <;> simp [State.writeReg]

end Sys2Proof.Machine
end

