-- ==== Sys2Proof/Laws/Exec.lean ====
section
/-! SUPPORT. What a command can do, said once: every meaning answers a next state, which is one of the effects below,
completed with a code. -/

namespace Sys2Proof.Machine

/-- `Effect i s code u`: performing i in s, before LASTCODE and ERR are written, gives u, and the code is `code`. -/
inductive Effect (s : State) : Instr → ResultCode → State → Prop where
  /-- An operand outside its legal set: nothing (R503). -/
  | illegal {i : Instr} (h : i.wellFormed = false) : Effect s i .illegalCommand s
  /-- No engine: nothing (R501). -/
  | noKey {i : Instr} (hw : i.wellFormed = true) (hn : needsKey i = true) (hk : s.kv = false) : Effect s i .keyNotLoaded s
  /-- A wrong declared key length: KV cleared (R262, R504). -/
  | wrongKeyLength {len : Byte} (h : len.toNat ≠ 32) : Effect s (.expand len) .invalidKeyLength s.dropEngine
  /-- A wrong declared block length: nothing (R345). -/
  | wrongBlockLength {len : Byte} (hk : s.kv = true) (h : len.toNat ≠ 16) : Effect s (.encrypt len) .invalidBlockLength s
  /-- Inconsistent padding: PV and PADINFO cleared (R385, R504). -/
  | badPadding {vlen : Byte} (hv : vlen.toNat ≤ 16) (h : paddingCount vlen.toNat s.block = none) :
      Effect s (.unpad vlen) .invalidPadding s.clearPadInfo
  /-- NOP: nothing (R410). -/
  | nop : Effect s .nop .ok s
  /-- EXPAND 32: the schedule and KV (R262). -/
  | expand {len : Byte} (h : len.toNat = 32) : Effect s (.expand len) .ok (s.loadSchedule (keyExpansion s.key))
  /-- ENCRYPT 16: STATE (R345). -/
  | encrypt {len : Byte} (hk : s.kv = true) (h : len.toNat = 16) :
      Effect s (.encrypt len) .ok (s.writeBlock (cipher s.w s.block))
  /-- ADDRK r: STATE (R340). -/
  | addrk {r : Byte} (hk : s.kv = true) (h : r.toNat ≤ 14) :
      Effect s (.addrk r) .ok (s.writeBlock (addRoundKey s.w ⟨r.toNat, by omega⟩ s.block))
  /-- SUBBYTES: STATE (R320). -/
  | subbytes : Effect s .subbytes .ok (s.writeBlock (subBytes s.block))
  /-- SHIFTROWS: STATE (R325). -/
  | shiftrows : Effect s .shiftrows .ok (s.writeBlock (shiftRows s.block))
  /-- MIXCOLUMNS: STATE (R332). -/
  | mixcolumns : Effect s .mixcolumns .ok (s.writeBlock (mixColumns s.block))
  /-- ROUND r: STATE (R343). -/
  | round {r : Byte} (hk : s.kv = true) (h : 1 ≤ r.toNat ∧ r.toNat ≤ 13) :
      Effect s (.round r) .ok (s.writeBlock (fullRound s.w ⟨r.toNat, by omega⟩ s.block))
  /-- FINALROUND: STATE (R344). -/
  | finalround (hk : s.kv = true) : Effect s .finalround .ok (s.writeBlock (finalRound s.w s.block))
  /-- TRANSPOSE: STATE (R302). -/
  | transpose : Effect s .transpose .ok (s.writeBlock (transposeBlock s.block))
  /-- GFMUL: AUX_R (R210). -/
  | gfmul : Effect s .gfmul .ok (s.setAuxR ((gfMul (lowByte s.auxA) (lowByte s.auxB)).setWidth 32))
  /-- SBOX: AUX_R (R211). -/
  | sbox : Effect s .sbox .ok (s.setAuxR ((sboxTable (lowByte s.auxA)).setWidth 32))
  /-- SUBWORD: AUX_R (R271). -/
  | subword : Effect s .subword .ok (s.setAuxR (subWord s.auxA))
  /-- ROTWORD: AUX_R (R270). -/
  | rotword : Effect s .rotword .ok (s.setAuxR (rotWord s.auxA))
  /-- MIXCOL: AUX_R (R212). -/
  | mixcol : Effect s .mixcol .ok (s.setAuxR (wordOfColumn (mixColumn (columnOfWord s.auxA))))
  /-- PAD R: STATE (R380). -/
  | pad {count : Byte} (h : count.toNat ≤ 15) :
      Effect s (.pad count) .ok (s.writeBlock (padBlock count.toNat s.block))
  /-- UNPAD VLEN: PV and PADINFO (R385). -/
  | unpad {vlen : Byte} {n : Nat} (hv : vlen.toNat ≤ 16) (h : paddingCount vlen.toNat s.block = some n) :
      Effect s (.unpad vlen) .ok (s.setPadInfo n (vlen.toNat - n))

/-- Every command completes, with one of the effects and its code. -/
theorem exec_effect (i : Instr) (s : State) : ∃ code u, exec i s = .next (u.complete code) ∧ Effect s i code u := by
  cases i with
  | nop => exact ⟨_, _, rfl, .nop⟩
  | subbytes => exact ⟨_, _, rfl, .subbytes⟩
  | shiftrows => exact ⟨_, _, rfl, .shiftrows⟩
  | mixcolumns => exact ⟨_, _, rfl, .mixcolumns⟩
  | transpose => exact ⟨_, _, rfl, .transpose⟩
  | gfmul => exact ⟨_, _, rfl, .gfmul⟩
  | sbox => exact ⟨_, _, rfl, .sbox⟩
  | subword => exact ⟨_, _, rfl, .subword⟩
  | rotword => exact ⟨_, _, rfl, .rotword⟩
  | mixcol => exact ⟨_, _, rfl, .mixcol⟩
  | expand len =>
    by_cases h : len.toNat = 32
    · exact ⟨_, _, by simp only [exec, execExpand, h, ne_eq, not_true, if_false]; rfl, .expand h⟩
    · exact ⟨_, _, by simp only [exec, execExpand, h, ne_eq, not_false_eq_true, if_true]; rfl, .wrongKeyLength h⟩
  | encrypt len =>
    cases hk : s.kv with
    | false => exact ⟨_, _, by simp only [exec, execEncrypt, State.requireKey, hk]; rfl, .noKey rfl rfl hk⟩
    | true =>
      by_cases h : len.toNat = 16
      · exact ⟨_, _, by simp only [exec, execEncrypt, State.requireKey, hk, h, ne_eq, not_true, if_false, if_true]; rfl,
          .encrypt hk h⟩
      · exact ⟨_, _, by simp only [exec, execEncrypt, State.requireKey, hk, h, ne_eq, not_false_eq_true, if_true]; rfl,
          .wrongBlockLength hk h⟩
  | addrk r =>
    by_cases h : r.toNat ≤ 14
    · cases hk : s.kv with
      | false => exact ⟨_, _, by simp only [exec, execAddrk, State.requireKey, h, hk]; rfl,
          .noKey (by simp [Instr.wellFormed, h]) rfl hk⟩
      | true => exact ⟨_, _, by simp only [exec, execAddrk, State.requireKey, h, hk]; rfl, .addrk hk h⟩
    · exact ⟨_, _, by simp only [exec, execAddrk, h]; rfl, .illegal (by simp [Instr.wellFormed, h])⟩
  | round r =>
    by_cases h : 1 ≤ r.toNat ∧ r.toNat ≤ 13
    · cases hk : s.kv with
      | false => exact ⟨_, _, by simp only [exec, execRound, State.requireKey, h, hk]; rfl,
          .noKey (by simp [Instr.wellFormed, h]) rfl hk⟩
      | true => exact ⟨_, _, by simp only [exec, execRound, State.requireKey, h, hk]; rfl, .round hk h⟩
    · exact ⟨_, _, by simp only [exec, execRound, h]; rfl, .illegal (by simp [Instr.wellFormed, -not_and, h])⟩
  | finalround =>
    cases hk : s.kv with
    | false => exact ⟨_, _, by simp only [exec, execFinalround, State.requireKey, hk]; rfl, .noKey rfl rfl hk⟩
    | true => exact ⟨_, _, by simp only [exec, execFinalround, State.requireKey, hk]; rfl, .finalround hk⟩
  | pad count =>
    by_cases h : count.toNat ≤ 15
    · exact ⟨_, _, by simp only [exec, execPad, h]; rfl, .pad h⟩
    · exact ⟨_, _, by simp only [exec, execPad, h]; rfl, .illegal (by simp [Instr.wellFormed, h])⟩
  | unpad vlen =>
    by_cases hv : vlen.toNat ≤ 16
    · cases h : paddingCount vlen.toNat s.block with
      | none => exact ⟨_, _, by simp only [exec, execUnpad, hv, h]; rfl, .badPadding hv h⟩
      | some n => exact ⟨_, _, by simp only [exec, execUnpad, hv, h]; rfl, .unpad hv h⟩
    · exact ⟨_, _, by simp only [exec, execUnpad, hv]; rfl, .illegal (by simp [Instr.wellFormed, hv])⟩

/-- The inversion of `exec`: a next state is an effect, completed with its code. -/
theorem exec_cases {i : Instr} {s t : State} (h : exec i s = .next t) :
    ∃ code u, t = u.complete code ∧ Effect s i code u := by
  obtain ⟨code, u, hu, he⟩ := exec_effect i s
  rw [hu] at h
  exact ⟨code, u, by cases h; rfl, he⟩

end Sys2Proof.Machine
end

