-- ==== Sys2Proof/Laws/Views.lean ====
section
/-! SUPPORT. The operand views are exact: bytes and words, STATE's registers and its byte view, the matrix view. -/

namespace Sys2Proof.Machine

/-- The bits of a packed word (R9): bit 8j + i is bit i of byte 3 - j. -/
theorem getLsbD_wordOf (b0 b1 b2 b3 : Byte) (i : Nat) :
    (wordOf b0 b1 b2 b3).getLsbD i =
      if i < 8 then b3.getLsbD i else if i < 16 then b2.getLsbD (i - 8)
      else if i < 24 then b1.getLsbD (i - 16) else b0.getLsbD (i - 24) := by
  show (((b0 ++ b1) ++ b2) ++ b3).getLsbD i = _
  rw [BitVec.getLsbD_append, BitVec.getLsbD_append, BitVec.getLsbD_append, Nat.sub_sub, Nat.sub_sub]
  by_cases h1 : i < 8
  · simp [h1]
  · by_cases h2 : i < 16
    · simp [h1, h2, show i - 8 < 8 by omega]
    · by_cases h3 : i < 24
      · simp [h1, h2, h3, show ¬ i - 8 < 8 by omega, show i - 16 < 8 by omega]
      · simp [h1, h2, h3, show ¬ i - 8 < 8 by omega, show ¬ i - 16 < 8 by omega]

/-- The bits of a byte of a word (R9). -/
theorem getLsbD_wordByte (w : Word) (k : Fin 4) (i : Nat) (hi : i < 8) :
    (wordByte w k).getLsbD i = w.getLsbD (8 * (3 - k.val) + i) := by
  simp [wordByte, hi]

@[simp] theorem wordByte_wordOf_zero (b0 b1 b2 b3 : Byte) : wordByte (wordOf b0 b1 b2 b3) 0 = b0 := by
  apply BitVec.eq_of_getLsbD_eq
  intro i hi
  rw [getLsbD_wordByte _ _ _ hi, getLsbD_wordOf]
  simp [show ¬ 24 + i < 8 by omega, show ¬ 24 + i < 16 by omega]

@[simp] theorem wordByte_wordOf_one (b0 b1 b2 b3 : Byte) : wordByte (wordOf b0 b1 b2 b3) 1 = b1 := by
  apply BitVec.eq_of_getLsbD_eq
  intro i hi
  rw [getLsbD_wordByte _ _ _ hi, getLsbD_wordOf]
  simp [show ¬ 16 + i < 8 by omega, show 16 + i < 24 by omega]

@[simp] theorem wordByte_wordOf_two (b0 b1 b2 b3 : Byte) : wordByte (wordOf b0 b1 b2 b3) 2 = b2 := by
  apply BitVec.eq_of_getLsbD_eq
  intro i hi
  rw [getLsbD_wordByte _ _ _ hi, getLsbD_wordOf]
  simp [show 8 + i < 16 by omega]

@[simp] theorem wordByte_wordOf_three (b0 b1 b2 b3 : Byte) : wordByte (wordOf b0 b1 b2 b3) 3 = b3 := by
  apply BitVec.eq_of_getLsbD_eq
  intro i hi
  rw [getLsbD_wordByte _ _ _ hi, getLsbD_wordOf]
  simp [hi]

/-- A word is its four bytes, packed (R9). -/
@[simp] theorem wordOf_wordByte (w : Word) :
    wordOf (wordByte w 0) (wordByte w 1) (wordByte w 2) (wordByte w 3) = w := by
  apply BitVec.eq_of_getLsbD_eq
  intro i hi
  rw [getLsbD_wordOf]
  split_ifs with h1 h2 h3
  · rw [getLsbD_wordByte _ _ _ h1]; simp
  · rw [getLsbD_wordByte _ _ _ (by omega)]; congr 1; simp; omega
  · rw [getLsbD_wordByte _ _ _ (by omega)]; congr 1; simp; omega
  · rw [getLsbD_wordByte _ _ _ (by omega)]; congr 1; simp; omega

/-- Two words with the same bytes are equal (R9). -/
theorem word_ext {v w : Word} (h : ∀ k, wordByte v k = wordByte w k) : v = w := by
  rw [← wordOf_wordByte v, ← wordOf_wordByte w, h 0, h 1, h 2, h 3]

/-- Exclusive-or acts on the bytes of a word separately (R310). -/
theorem wordByte_xor (v w : Word) (k : Fin 4) : wordByte (v ^^^ w) k = wordByte v k ^^^ wordByte w k := by
  simp [wordByte, BitVec.extractLsb'_xor]

/-- `bytes` and `word` are inverse (R9). -/
@[simp] theorem wordOfColumn_columnOfWord (w : Word) : wordOfColumn (columnOfWord w) = w := by
  simp [wordOfColumn, columnOfWord]

/-- The byte view of four registers and the registers of a byte view are inverse (R54). -/
@[simp] theorem blockOfWords_wordsOfBlock (b : Block) : blockOfWords (wordsOfBlock b) = b := by
  apply Vector.ext
  intro k hk
  interval_cases k <;> simp [blockOfWords, wordsOfBlock]

/-- The registers of the byte view of four registers are those registers (R54). -/
@[simp] theorem wordsOfBlock_blockOfWords (ws : Vector Word 4) : wordsOfBlock (blockOfWords ws) = ws := by
  apply Vector.ext
  intro j hj
  interval_cases j <;> simp [blockOfWords, wordsOfBlock]

/-- What is written to STATE as a block is read back (R10). -/
@[simp] theorem State.block_writeBlock (s : State) (b : Block) : (s.writeBlock b).block = b := by
  simp [State.block, State.writeBlock]

/-- Writing back the block that STATE holds changes nothing (R54). -/
@[simp] theorem State.writeBlock_block (s : State) : s.writeBlock s.block = s := by
  simp [State.block, State.writeBlock]

/-- The last of two writes of STATE counts (R54). -/
@[simp] theorem State.writeBlock_writeBlock (s : State) (b c : Block) : (s.writeBlock b).writeBlock c = s.writeBlock c := rfl

/-- Completing a command does not touch STATE (R505). -/
@[simp] theorem State.block_complete (s : State) (c : ResultCode) : (s.complete c).block = s.block := rfl

/-- The response to an access does not touch STATE (log 3). -/
@[simp] theorem State.block_respond (s : State) (r : Response) : (s.respond r).block = s.block := rfl

/-- The host's list does not touch STATE (log 1). -/
@[simp] theorem State.block_withPending (s : State) (es : List HostEvent) : (s.withPending es).block = s.block := rfl

/-- Byte k of the block whose matrix is f (R300). -/
theorem getElem_ofMatrix (f : Fin 4 → Fin 4 → Byte) (k : Nat) (hk : k < 16) :
    (ofMatrix f)[k] = f ⟨k % 4, Nat.mod_lt _ (by decide)⟩ ⟨k / 4, by omega⟩ := by
  simp [ofMatrix]

/-- Cell (r, c) of the block whose matrix is f (R300). -/
@[simp] theorem cell_ofMatrix (f : Fin 4 → Fin 4 → Byte) (r c : Fin 4) : cell (ofMatrix f) r c = f r c := by
  simp only [cell, getElem_ofMatrix]
  have hr : (r.val + 4 * c.val) % 4 = r.val := by omega
  have hc : (r.val + 4 * c.val) / 4 = c.val := by omega
  simp only [hr, hc]

/-- A block is its matrix (R300). -/
@[simp] theorem ofMatrix_cell (s : Block) : ofMatrix (cell s) = s := by
  apply Vector.ext
  intro k hk
  rw [getElem_ofMatrix _ _ hk]
  simp only [cell, Nat.mod_add_div]

/-- Two blocks with the same matrix are equal (R300). -/
theorem block_ext {s t : Block} (h : ∀ r c, cell s r c = cell t r c) : s = t := by
  rw [← ofMatrix_cell s, ← ofMatrix_cell t]
  congr 1
  funext r c
  exact h r c

end Sys2Proof.Machine
end

