-- ==== Sys2Proof/Laws/Blocks.lean ====
section
/-! SUPPORT. The commands on STATE, each as one equation in a folded form, and how they follow one another. -/

namespace Sys2Proof.Machine

/-- The state after a command on STATE succeeds: the block written, the command completed. -/
def State.afterBlock (s : State) (b : Block) : State := (s.writeBlock b).complete .ok

variable (s : State) (b c : Block)

@[simp] theorem State.afterBlock_block : (s.afterBlock b).block = b := State.block_writeBlock s b
@[simp] theorem State.afterBlock_w : (s.afterBlock b).w = s.w := rfl
@[simp] theorem State.afterBlock_kv : (s.afterBlock b).kv = s.kv := rfl
@[simp] theorem State.afterBlock_err : (s.afterBlock b).err = s.err := by simp [State.afterBlock]
@[simp] theorem State.afterBlock_state : (s.afterBlock b).state = wordsOfBlock b := rfl
@[simp] theorem State.afterBlock_lastCode : (s.afterBlock b).lastCode = 0 := rfl
@[simp] theorem State.afterBlock_resetAsserted : (s.afterBlock b).resetAsserted = s.resetAsserted := rfl

/-- Of two commands on STATE, the later block stands. -/
@[simp] theorem State.afterBlock_afterBlock : (s.afterBlock b).afterBlock c = s.afterBlock c := by
  simp [State.afterBlock, State.complete, State.writeBlock]

/-- Only STATE and LASTCODE differ. -/
theorem State.afterBlock_eq : s.afterBlock b = { s with state := wordsOfBlock b, lastCode := 0 } := by
  simp [State.afterBlock, State.complete, State.writeBlock, ResultCode.bits]

/-- The frame of a command on STATE. -/
theorem State.afterBlock_onlyBlock : OnlyBlock s (s.afterBlock b) := by simp [OnlyBlock, State.afterBlock_eq]

theorem exec_subbytes : exec .subbytes s = .next (s.afterBlock (subBytes s.block)) := rfl
theorem exec_shiftrows : exec .shiftrows s = .next (s.afterBlock (shiftRows s.block)) := rfl
theorem exec_mixcolumns : exec .mixcolumns s = .next (s.afterBlock (mixColumns s.block)) := rfl
theorem exec_transpose : exec .transpose s = .next (s.afterBlock (transposeBlock s.block)) := rfl

theorem toNat_ofNat_roundIndex (r : Fin 15) : (BitVec.ofNat 8 r.val).toNat = r.val := by
  rw [BitVec.toNat_ofNat]; omega

variable {s} in
theorem exec_addrk (hk : s.kv = true) (r : Fin 15) :
    exec (.addrk (BitVec.ofNat 8 r.val)) s = .next (s.afterBlock (addRoundKey s.w r s.block)) := by
  have h : r.val ≤ 14 := by omega
  simp only [exec, execAddrk, toNat_ofNat_roundIndex, h, State.requireKey, hk, dite_true, if_true]
  rfl

variable {s} in
theorem exec_round (hk : s.kv = true) (r : Fin 15) (h : 1 ≤ r.val ∧ r.val ≤ 13) :
    exec (.round (BitVec.ofNat 8 r.val)) s = .next (s.afterBlock (fullRound s.w r s.block)) := by
  simp only [exec, execRound, toNat_ofNat_roundIndex, h, State.requireKey, hk, and_self, dite_true, if_true]
  rfl

variable {s} in
theorem exec_finalround (hk : s.kv = true) : exec .finalround s = .next (s.afterBlock (finalRound s.w s.block)) := by
  simp only [exec, execFinalround, State.requireKey, hk, if_true]
  rfl

variable {s} in
theorem exec_encrypt (hk : s.kv = true) : exec (.encrypt 16) s = .next (s.afterBlock (cipher s.w s.block)) := by
  simp only [exec, execEncrypt, State.requireKey, hk, if_true]
  rfl

theorem exec_pad (r : Fin 16) : exec (.pad (BitVec.ofNat 8 r.val)) s = .next (s.afterBlock (padBlock r.val s.block)) := by
  have hr : (BitVec.ofNat 8 r.val).toNat = r.val := by rw [BitVec.toNat_ofNat]; omega
  have h : r.val ≤ 15 := by omega
  simp only [exec, execPad, hr, h, if_true]
  rfl

/-- A sequence of commands begins with its first. -/
theorem runCommands_cons {i : Instr} {is : List Instr} {s t : State} (h : exec i s = .next t) :
    runCommands (i :: is) s = runCommands is t := by
  simp only [runCommands, h]

/-- A sequence of commands is its first part, then its second. -/
theorem runCommands_append {is js : List Instr} {s t : State} (h : runCommands is s = .next t) :
    runCommands (is ++ js) s = runCommands js t := by
  induction is generalizing s with
  | nil => cases h; rfl
  | cons i is ih =>
    obtain ⟨code, u, hu, -⟩ := exec_effect i s
    rw [runCommands_cons hu] at h
    rw [List.cons_append, runCommands_cons hu]
    exact ih h

/-- Word j of a block's registers is the block's column j (R54). -/
theorem wordByte_wordsOfBlock (j k : Fin 4) : wordByte (wordsOfBlock b)[j] k = cell b k j := by
  conv_rhs => rw [← blockOfWords_wordsOfBlock b]
  have hj : (k.val + 4 * j.val) / 4 = j.val := by omega
  have hk : (k.val + 4 * j.val) % 4 = k.val := by omega
  simp only [cell, blockOfWords, Vector.getElem_ofFn, Fin.getElem_fin, hj, hk]

/-- Cell (k, j) of STATE is byte k of register j (R54). -/
theorem cell_block (j k : Fin 4) : cell s.block k j = wordByte s.state[j] k := by
  rw [← wordByte_wordsOfBlock]
  simp [State.block]

/-- AddRoundKey on the matrix: column j takes word 4r + j of the schedule (R335). -/
theorem cell_addRoundKey (w : Vector Word 60) (r : Fin 15) (i j : Fin 4) :
    cell (addRoundKey w r b) i j = cell b i j ^^^ wordByte w[4 * r.val + j.val] i := by
  have hq : (16 * r.val + (i.val + 4 * j.val)) / 4 = 4 * r.val + j.val := by omega
  have hm : (16 * r.val + (i.val + 4 * j.val)) % 4 = i.val := by omega
  simp only [cell, addRoundKey, roundKey, schedByte, Vector.getElem_ofFn, Fin.getElem_fin, hq, hm]

/-- UNPAD's four checks are the validity of the padding (R385). -/
theorem paddingCount_eq (vlen : Nat) : paddingCount vlen b = if PaddingValid b vlen then some b[15].toNat else none := by
  have h : paddingMismatch b b[15] = false ↔ ∀ k : Fin 16, 16 - b[15].toNat ≤ k.val → b[k] = b[15] := by
    simp [paddingMismatch, List.any_eq_false]
  unfold paddingCount
  split_ifs <;> simp_all [PaddingValid] <;> omega

end Sys2Proof.Machine
end

