-- ==== Sys2Proof/Laws/PerInstr.lean ====
section
/-! SUPPORT. Per instruction: the fields of its word (30_encoding.md R150, R158). -/

namespace Sys2Proof.Laws.Fields

open Sys2Proof

/-- The word of a command has its opcode in [7:0], its operand in [15:8] and zeros in [31:16]. -/
def Statement (i : Instr) : Prop :=
  opcField (encode i) = i.opcode ∧ argField (encode i) = i.arg ∧ rsvField (encode i) = 0

/-- The fields of `enc(opc, arg)` (R158). -/
theorem fields_encodeFields (opc arg : Byte) :
    opcField (encodeFields opc arg) = opc ∧ argField (encodeFields opc arg) = arg ∧
      rsvField (encodeFields opc arg) = 0 := by
  refine ⟨?_, ?_, ?_⟩ <;> apply BitVec.eq_of_getLsbD_eq <;> intro k hk
  · simp [opcField, encodeFields, hk, show k < 32 by omega]
  · simp [argField, encodeFields, hk, show 8 + k < 32 by omega]
  · have h : opc.getLsbD (16 + k) = false := BitVec.getLsbD_of_ge _ _ (by omega)
    simp [rsvField, encodeFields, hk, show 16 + k < 32 by omega, show 16 + k - 8 = 8 + k by omega, h]

theorem nop : Statement .nop := fields_encodeFields _ _
theorem expand (len : Byte) : Statement (.expand len) := fields_encodeFields _ _
theorem encrypt (len : Byte) : Statement (.encrypt len) := fields_encodeFields _ _
theorem addrk (r : Byte) : Statement (.addrk r) := fields_encodeFields _ _
theorem subbytes : Statement .subbytes := fields_encodeFields _ _
theorem shiftrows : Statement .shiftrows := fields_encodeFields _ _
theorem mixcolumns : Statement .mixcolumns := fields_encodeFields _ _
theorem round (r : Byte) : Statement (.round r) := fields_encodeFields _ _
theorem finalround : Statement .finalround := fields_encodeFields _ _
theorem transpose : Statement .transpose := fields_encodeFields _ _
theorem gfmul : Statement .gfmul := fields_encodeFields _ _
theorem sbox : Statement .sbox := fields_encodeFields _ _
theorem subword : Statement .subword := fields_encodeFields _ _
theorem rotword : Statement .rotword := fields_encodeFields _ _
theorem mixcol : Statement .mixcol := fields_encodeFields _ _
theorem pad (count : Byte) : Statement (.pad count) := fields_encodeFields _ _
theorem unpad (vlen : Byte) : Statement (.unpad vlen) := fields_encodeFields _ _

end Sys2Proof.Laws.Fields
end

