-- ==== Sys2Proof/Laws/Decode.lean ====
section
/-! SUPPORT. The command word: a word is its three fields, and no two rows of R153's table share an opcode. -/

namespace Sys2Proof

/-- Two words with the same fields are equal (R150). -/
theorem word_eq_of_fields {c d : Word} (ho : opcField c = opcField d) (ha : argField c = argField d)
    (hr : rsvField c = rsvField d) : c = d := by
  apply BitVec.eq_of_getLsbD_eq
  intro k hk
  by_cases h1 : k < 8
  · have := congrArg (·.getLsbD k) ho
    simpa [opcField, h1] using this
  · by_cases h2 : k < 16
    · have := congrArg (·.getLsbD (k - 8)) ha
      simpa [argField, show k - 8 < 8 by omega, show 8 + (k - 8) = k by omega] using this
    · have := congrArg (·.getLsbD (k - 16)) hr
      simpa [rsvField, show k - 16 < 16 by omega, show 16 + (k - 16) = k by omega] using this

/-- Every opcode of R153's table stands in one row only. -/
theorem opcodeTable_opcodes_distinct : opcodeTable.Pairwise fun r s => r.opc ≠ s.opc := by
  simp [opcodeTable]

/-- Reserved bits are refused whatever OPC and ARG hold (R151). -/
theorem decode_of_reserved {c : Word} (h : rsvField c ≠ 0) : decode c = .error .reservedBits := by
  rw [decode, if_pos h]

/-- The inversion of the decoder: what decodes has no reserved bits and is a row's command, with a legal ARG (R152). -/
theorem decode_cases {c : Word} {i : Instr} (h : decode c = .ok i) :
    rsvField c = 0 ∧ ∃ row ∈ opcodeTable, row.opc = opcField c ∧ row.argMin ≤ (argField c).toNat ∧
      (argField c).toNat ≤ row.argMax ∧ i = row.command (argField c) := by
  unfold decode at h
  split at h
  · cases h
  · next hr =>
    split at h
    · cases h
    · next row hf =>
      split at h
      · next ha =>
        exact ⟨by simpa using hr, row, List.mem_of_find?_eq_some hf, by simpa using List.find?_some hf, ha.1, ha.2,
          by cases h; rfl⟩
      · cases h

/-- Decoding `enc(opc, arg)` is the lookup of its opcode and the check of its operand (R152, R158). -/
theorem decode_encodeFields (opc arg : Byte) :
    decode (encodeFields opc arg) =
      match opcodeTable.find? (fun row => row.opc == opc) with
      | none => .error .unknownOpcode
      | some row =>
        if row.argMin ≤ arg.toNat ∧ arg.toNat ≤ row.argMax then .ok (row.command arg) else .error .illegalArg := by
  obtain ⟨ho, ha, hr⟩ := Laws.Fields.fields_encodeFields opc arg
  simp only [decode, ho, ha, hr, ne_eq, not_true, if_false]
  all_goals rfl

end Sys2Proof
end

