-- ==== Sys2Proof/Laws/Bus.lean ====
section
/-! SUPPORT. The bus port, said once: what performing a word can do, which register an address decodes to, and what one event
can do to the state. -/

namespace Sys2Proof.Machine

/-- The inversion of `perform`: the word spells no command, or it decodes to one and has that command's effect. -/
theorem perform_cases {c : Word} {s t : State} (h : perform c s = .next t) :
    (∃ e, decode c = .error e ∧ t = s.complete .illegalCommand) ∨
    ∃ i code u, decode c = .ok i ∧ t = u.complete code ∧ Effect s i code u := by
  unfold perform at h
  cases hd : decode c with
  | error e => rw [hd] at h; exact .inl ⟨e, rfl, by cases h; rfl⟩
  | ok i =>
    rw [hd] at h
    obtain ⟨code, u, hu, he⟩ := exec_cases h
    exact .inr ⟨i, code, u, rfl, hu, he⟩

/-- Every word completes (R156). -/
theorem perform_next (c : Word) (s : State) : ∃ t, perform c s = .next t := by
  unfold perform
  cases decode c with
  | error e => exact ⟨_, rfl⟩
  | ok i => obtain ⟨code, u, hu, -⟩ := exec_effect i s; exact ⟨_, hu⟩

/-- Every register decodes from its own offset (R108). -/
theorem decodeAccess_offset (r : Reg) : decodeAccess r.offset 4 = some r := by
  cases r with
  | key j => revert j; decide
  | state j => revert j; decide
  | rk i => revert i; decide
  | cmd | status | cfg | padInfo | auxA | auxB | auxR => rfl

/-- What an access decodes to is the register at that offset, aligned and of 4 bytes (R102, R108). -/
theorem decodeAccess_eq_some {a : Addr} {size : Nat} {r : Reg} (h : decodeAccess a size = some r) :
    size = 4 ∧ a = r.offset := by
  unfold decodeAccess at h
  split_ifs at h with hc
  obtain ⟨hs, ha⟩ := hc
  refine ⟨hs, BitVec.eq_of_toNat_eq ?_⟩
  unfold regAtWordOf at h
  split_ifs at h <;> injection h <;> subst r <;> simp [Reg.offset] <;> omega

/-- A read of a register at its offset returns its value (R103). -/
@[simp] theorem memRead_offset (r : Reg) (s : State) : memRead r.offset 4 s = some (s.readReg r) := by
  simp [memRead, decodeAccess_offset]

/-- A write of a register at its offset: the command, the stored value, or a bus error (R104). -/
theorem memWrite_offset (r : Reg) (v : Word) (s : State) (hr : r ≠ .cmd) :
    memWrite r.offset 4 v s =
      match s.writeReg v r with
      | some t => .next t
      | none => .fault (.busError (.write r.offset 4 v)) := by
  rw [memWrite, decodeAccess_offset]
  cases r <;> first | exact absurd rfl hr | rfl

/-- A write to CMD performs the command (R65, R104). -/
@[simp] theorem memWrite_cmd (v : Word) (s : State) : memWrite 0x000 4 v s = perform v s := rfl

/-- The inversion of a write that answers next: a command, or a storage register's write (R104). -/
theorem memWrite_cases {a : Addr} {size : Nat} {v : Word} {s t : State} (h : memWrite a size v s = .next t) :
    (a = 0x000 ∧ size = 4 ∧ perform v s = .next t) ∨
    ∃ r, r ≠ .cmd ∧ a = r.offset ∧ size = 4 ∧ s.writeReg v r = some t := by
  unfold memWrite at h
  split at h
  · next hd => obtain ⟨hs, ha⟩ := decodeAccess_eq_some hd; exact .inl ⟨ha, hs, h⟩
  · next r hr hd =>
    obtain ⟨hs, ha⟩ := decodeAccess_eq_some hd
    split at h
    · next u hu => exact .inr ⟨r, hr, ha, hs, by cases h; exact hu⟩
    · cases h
  · cases h

/-- What one event can do, if it answers next: a read sets the response; a write sets it and performs the command or stores the
value; the reset input resets. -/
theorem takeEvent_cases {e : HostEvent} {s t : State} (h : takeEvent s e = .next t) :
    (∃ a size v, e = .access (.read a size) ∧ s.resetAsserted = false ∧ memRead a size s = some v ∧
      t = s.respond (.data v)) ∨
    (∃ c, e = .access (.write 0x000 4 c) ∧ s.resetAsserted = false ∧ perform c (s.respond .done) = .next t) ∨
    (∃ r v, r ≠ .cmd ∧ e = .access (.write r.offset 4 v) ∧ s.resetAsserted = false ∧
      (s.respond .done).writeReg v r = some t) ∨
    (e = .assertReset ∧ t = s.applyReset true) ∨
    (e = .releaseReset ∧ t = if s.resetAsserted then s.applyReset false else s) := by
  cases e with
  | assertReset => exact .inr (.inr (.inr (.inl ⟨rfl, by cases h; rfl⟩)))
  | releaseReset => exact .inr (.inr (.inr (.inr ⟨rfl, by cases h; rfl⟩)))
  | access a =>
    simp only [takeEvent] at h
    split at h
    · cases h
    · next hr =>
      simp only [Bool.not_eq_true] at hr
      cases a with
      | read a size =>
        simp only [performAccess] at h
        split at h
        · next v hv => exact .inl ⟨a, size, v, rfl, hr, hv, by cases h; rfl⟩
        · cases h
      | write a size v =>
        rcases memWrite_cases h with ⟨rfl, rfl, hp⟩ | ⟨r, hne, rfl, rfl, hw⟩
        · exact .inr (.inl ⟨v, rfl, hr, hp⟩)
        · exact .inr (.inr (.inl ⟨r, v, hne, rfl, hr, hw⟩))

/-- The inversion of a step: the host is idle, or its next event is taken. -/
theorem step_cases {s t : State} (h : step s = .next t) :
    (s.pending = [] ∧ t = s) ∨ ∃ e es, s.pending = e :: es ∧ takeEvent (s.withPending es) e = .next t := by
  unfold step stepHost at h
  split at h
  · next hp => exact .inl ⟨hp, by cases h; rfl⟩
  · next e es hp => exact .inr ⟨e, es, hp, h⟩

end Sys2Proof.Machine
end

