-- ==== Sys2Proof/Laws/Gf.lean ====
section
/-! SUPPORT. The multiplier of R200 as a sum over the bits of its second operand, and its additivity in each operand. -/

namespace Sys2Proof.Machine

/-- `xtime` is additive (R202). -/
theorem xtime_xor (a b : Byte) : xtime (a ^^^ b) = xtime a ^^^ xtime b := by
  simp only [xtime, BitVec.getLsbD_xor, BitVec.shiftLeft_xor_distrib]
  cases a.getLsbD 7 <;> cases b.getLsbD 7 <;> simp only [Bool.xor_false, Bool.xor_true, Bool.not_false, Bool.not_true,
    if_true, Bool.false_eq_true, if_false]
  · ac_rfl
  · ac_rfl
  · rw [show ∀ x y z : Byte, x ^^^ z ^^^ (y ^^^ z) = x ^^^ y ^^^ (z ^^^ z) from fun x y z => by ac_rfl]
    simp

/-- Zero is neutral for ⊕. -/
theorem byte_zero_xor (x : Byte) : 0 ^^^ x = x := BitVec.zero_xor

/-- The accumulator of R200's loop is only added to. -/
theorem gfLoop_acc (n : Nat) (acc a b : Byte) : gfLoop n acc a b = acc ^^^ gfLoop n 0 a b := by
  induction n generalizing acc a b with
  | zero => simp [gfLoop]
  | succ n ih =>
    rw [gfLoop, gfLoop, ih, ih (if b.getLsbD 0 then 0 ^^^ a else 0)]
    cases b.getLsbD 0 <;> simp [BitVec.xor_assoc]

/-- R200's loop is additive in its first operand. -/
theorem gfLoop_xor_left (n : Nat) (a a' b : Byte) :
    gfLoop n 0 (a ^^^ a') b = gfLoop n 0 a b ^^^ gfLoop n 0 a' b := by
  induction n generalizing a a' b with
  | zero => simp [gfLoop]
  | succ n ih =>
    simp only [gfLoop]
    rw [gfLoop_acc n (if b.getLsbD 0 then 0 ^^^ (a ^^^ a') else 0), gfLoop_acc n (if b.getLsbD 0 then 0 ^^^ a else 0),
      gfLoop_acc n (if b.getLsbD 0 then 0 ^^^ a' else 0), xtime_xor, ih]
    cases b.getLsbD 0 <;> simp only [Bool.false_eq_true, if_true, if_false, byte_zero_xor]
    ac_rfl

/-- R200's loop is additive in its second operand. -/
theorem gfLoop_xor_right (n : Nat) (a b b' : Byte) :
    gfLoop n 0 a (b ^^^ b') = gfLoop n 0 a b ^^^ gfLoop n 0 a b' := by
  induction n generalizing a b b' with
  | zero => simp [gfLoop]
  | succ n ih =>
    simp only [gfLoop]
    rw [gfLoop_acc n (if (b ^^^ b').getLsbD 0 then 0 ^^^ a else 0), gfLoop_acc n (if b.getLsbD 0 then 0 ^^^ a else 0),
      gfLoop_acc n (if b'.getLsbD 0 then 0 ^^^ a else 0), BitVec.ushiftRight_xor_distrib, ih]
    cases hb : b.getLsbD 0 <;> cases hb' : b'.getLsbD 0 <;>
      simp only [BitVec.getLsbD_xor, hb, hb', Bool.xor_false, Bool.xor_true, Bool.not_false, Bool.not_true,
        Bool.false_eq_true, if_true, if_false, byte_zero_xor]
    · ac_rfl
    · ac_rfl
    · rw [show ∀ x y z : Byte, z ^^^ x ^^^ (z ^^^ y) = x ^^^ y ^^^ (z ^^^ z) from fun x y z => by ac_rfl]
      simp

/-- An additive function of a byte is determined by its values on the eight bytes with one bit set. -/
theorem additive_ext {f g : Byte → Byte} (hf : ∀ a b, f (a ^^^ b) = f a ^^^ f b) (hg : ∀ a b, g (a ^^^ b) = g a ^^^ g b)
    (h : ∀ i < 8, f (1#8 <<< i) = g (1#8 <<< i)) (a : Byte) : f a = g a := by
  have hf0 : f 0 = 0 := by simpa using hf 0 0
  have hg0 : g 0 = 0 := by simpa using hg 0 0
  have hsum : ∀ a : Byte, a = (List.range 8).foldl (fun acc i => acc ^^^ if a.getLsbD i then 1#8 <<< i else 0) 0 := by
    decide +kernel
  have hbit : ∀ i < 8, f (if a.getLsbD i then 1#8 <<< i else 0) = g (if a.getLsbD i then 1#8 <<< i else 0) := by
    intro i hi
    split
    · exact h i hi
    · rw [hf0, hg0]
  rw [hsum a]
  simp only [List.range_succ, List.range_zero, List.nil_append, List.cons_append, List.foldl_cons, List.foldl_nil, hf, hg,
    hf0, hg0]
  rw [hbit 0 (by decide), hbit 1 (by decide), hbit 2 (by decide), hbit 3 (by decide), hbit 4 (by decide),
    hbit 5 (by decide), hbit 6 (by decide), hbit 7 (by decide)]

end Sys2Proof.Machine
end

