-- ==== Sys2Proof/Laws/HostProgram.lean ====
section
/-! SUPPORT. Host programs, said once: how a program runs event by event, and what one write or one read does in it. -/

namespace Sys2Proof.Machine

/-- A host program begins with its first event. -/
theorem runHost_cons {e : HostEvent} {es : List HostEvent} {s t u : State} {vs : List Word} (h : takeEvent s e = .next t)
    (h' : runHost es t = .next (u, vs)) : runHost (e :: es) s = .next (u, recorded e t ++ vs) := by
  simp only [runHost, h, h']

/-- The inversion of a host program that completes. -/
theorem runHost_cons_cases {e : HostEvent} {es : List HostEvent} {s u : State} {vs : List Word}
    (h : runHost (e :: es) s = .next (u, vs)) :
    ∃ t ws, takeEvent s e = .next t ∧ runHost es t = .next (u, ws) ∧ vs = recorded e t ++ ws := by
  simp only [runHost] at h
  split at h
  · cases h
  · cases h
  · next t ht =>
    split at h
    · cases h
    · cases h
    · next v ws hw => cases h; exact ⟨t, ws, ht, hw, rfl⟩

/-- A host program is its first part, then its second. -/
theorem runHost_append {es fs : List HostEvent} {s t u : State} {vs ws : List Word} (h : runHost es s = .next (t, vs))
    (h' : runHost fs t = .next (u, ws)) : runHost (es ++ fs) s = .next (u, vs ++ ws) := by
  induction es generalizing s vs with
  | nil => cases h; exact h'
  | cons e es ih =>
    obtain ⟨v, xs, hv, hx, rfl⟩ := runHost_cons_cases h
    rw [List.append_assoc]
    exact runHost_cons hv (ih hx)

/-- `WR reg, v` of a register that holds its own value (R160). -/
theorem takeEvent_wr {r : Reg} {v : Word} {s t : State} (hs : s.resetAsserted = false) (hr : r ≠ .cmd)
    (h : (s.respond .done).writeReg v r = some t) : takeEvent s (wr r v) = .next t := by
  simp only [takeEvent, wr, hs, performAccess, memWrite_offset _ _ _ hr, h, Bool.false_eq_true, if_false]

/-- `RD reg` (R160). -/
theorem takeEvent_rd {r : Reg} {s : State} (hs : s.resetAsserted = false) :
    takeEvent s (rd r) = .next (s.respond (.data (s.readReg r))) := by
  simp only [takeEvent, rd, hs, performAccess, memRead_offset, Bool.false_eq_true, if_false]

/-- `WR CMD, c` (R160): the command, performed. -/
theorem takeEvent_wr_cmd {c : Word} {s : State} (hs : s.resetAsserted = false) :
    takeEvent s (wr .cmd c) = perform c (s.respond .done) := by
  simp only [takeEvent, hs, Bool.false_eq_true, if_false, wr, Reg.offset, performAccess, memWrite_cmd]

end Sys2Proof.Machine
end

