-- ==== Sys2Proof/Laws/Independence.lean ====
section
/-! SUPPORT. A command does not depend on what it does not read: an update of the state that leaves a command's operands alone
and commutes with every write a command can make commutes with the command. -/

namespace Sys2Proof.Machine

/-- A scalar command: one that reads AUX_A and writes AUX_R (40_gf_sbox.md R210 to R212; 41_key_schedule.md R270, R271). -/
def usesAux : Instr → Bool
  | .gfmul | .sbox | .subword | .rotword | .mixcol => true
  | .nop | .expand _ | .encrypt _ | .addrk _ | .subbytes | .shiftrows | .mixcolumns | .round _ | .finalround => false
  | .transpose | .pad _ | .unpad _ => false

/-- A command that reads STATE (10_state.md R51). -/
def readsState : Instr → Bool
  | .encrypt _ | .addrk _ | .subbytes | .shiftrows | .mixcolumns | .round _ | .finalround | .transpose => true
  | .pad _ | .unpad _ => true
  | .nop | .expand _ | .gfmul | .sbox | .subword | .rotword | .mixcol => false

/-- The update commutes with every write the command can make. -/
structure CommutesWithWrites (f : State → State) (i : Instr) : Prop where
  writeBlock : readsState i = true → ∀ s b, (f s).writeBlock b = f (s.writeBlock b)
  setAuxR : usesAux i = true → ∀ s v, (f s).setAuxR v = f (s.setAuxR v)
  loadSchedule : i.opcode = 0x01 → ∀ s x, (f s).loadSchedule x = f (s.loadSchedule x)
  dropEngine : ∀ s, (f s).dropEngine = f s.dropEngine
  setPadInfo : ∀ s n k, (f s).setPadInfo n k = f (s.setPadInfo n k)
  clearPadInfo : ∀ s, (f s).clearPadInfo = f s.clearPadInfo
  complete : ∀ s c, (f s).complete c = f (s.complete c)

/-- The update leaves alone every register the command reads (10_state.md R51; 60_exceptions.md R501). -/
structure KeepsOperands (f : State → State) (i : Instr) (s : State) : Prop where
  state : readsState i = true → (f s).state = s.state
  auxA : usesAux i = true → (f s).auxA = s.auxA
  auxB : i = .gfmul → (f s).auxB = s.auxB
  key : i.opcode = 0x01 → (f s).key = s.key
  w : needsKey i = true → (f s).w = s.w
  kv : needsKey i = true → (f s).kv = s.kv

/-- A command does not depend on what it does not read. -/
theorem exec_independent {f : State → State} {i : Instr} {s t : State} (hf : CommutesWithWrites f i) (ho : KeepsOperands f i s)
    (h : exec i s = .next t) : exec i (f s) = .next (f t) := by
  have hb : readsState i = true → (f s).block = s.block := fun h => by rw [State.block, ho.state h, State.block]
  obtain ⟨code, u, rfl, he⟩ := exec_cases h
  clear h
  cases he with
  | illegal h =>
    rw [← hf.complete]
    cases i <;> simp only [Instr.wellFormed, decide_eq_false_iff_not, Bool.true_eq_false] at h <;>
      simp only [exec, execAddrk, execRound, execPad, execUnpad, h, dite_false, if_false] <;> rfl
  | noKey hw hn hk =>
    have hk' := (ho.kv hn).trans hk
    rw [← hf.complete]
    cases i <;> simp only [needsKey, Bool.false_eq_true] at hn <;>
      simp only [Instr.wellFormed, decide_eq_true_eq] at hw <;>
      simp only [exec, execAddrk, execRound, execEncrypt, execFinalround, State.requireKey, hw, hk', and_self, dite_true,
        Bool.false_eq_true, if_false] <;> rfl
  | wrongKeyLength h =>
    rw [← hf.complete, ← hf.dropEngine]
    simp only [exec, execExpand, h, ne_eq, not_false_eq_true, if_true]
    rfl
  | wrongBlockLength hk h =>
    have hk' := (ho.kv rfl).trans hk
    rw [← hf.complete]
    simp only [exec, execEncrypt, State.requireKey, hk', h, ne_eq, not_false_eq_true, if_true]
    rfl
  | badPadding hv h =>
    rw [← hf.complete, ← hf.clearPadInfo]
    simp only [exec, execUnpad, hv, if_true, hb rfl, h]
    rfl
  | nop => rw [← hf.complete]; rfl
  | expand h =>
    rw [← hf.complete, ← hf.loadSchedule rfl]
    simp only [exec, execExpand, h, ne_eq, not_true, if_false, ho.key rfl]
    rfl
  | encrypt hk h =>
    have hk' := (ho.kv rfl).trans hk
    rw [← hf.complete, ← hf.writeBlock rfl]
    simp only [exec, execEncrypt, State.requireKey, hk', h, ne_eq, not_true, if_false, if_true, hb rfl, ho.w rfl]
    rfl
  | addrk hk h =>
    have hk' := (ho.kv rfl).trans hk
    rw [← hf.complete, ← hf.writeBlock rfl]
    simp only [exec, execAddrk, State.requireKey, hk', h, dite_true, if_true, hb rfl, ho.w rfl]
    rfl
  | round hk h =>
    have hk' := (ho.kv rfl).trans hk
    rw [← hf.complete, ← hf.writeBlock rfl]
    simp only [exec, execRound, State.requireKey, hk', h, and_self, dite_true, if_true, hb rfl, ho.w rfl]
    rfl
  | finalround hk =>
    have hk' := (ho.kv rfl).trans hk
    rw [← hf.complete, ← hf.writeBlock rfl]
    simp only [exec, execFinalround, State.requireKey, hk', if_true, hb rfl, ho.w rfl]
    rfl
  | subbytes => rw [← hf.complete, ← hf.writeBlock rfl, ← hb rfl]; rfl
  | shiftrows => rw [← hf.complete, ← hf.writeBlock rfl, ← hb rfl]; rfl
  | mixcolumns => rw [← hf.complete, ← hf.writeBlock rfl, ← hb rfl]; rfl
  | transpose => rw [← hf.complete, ← hf.writeBlock rfl, ← hb rfl]; rfl
  | gfmul => rw [← hf.complete, ← hf.setAuxR rfl, ← ho.auxA rfl, ← ho.auxB rfl]; rfl
  | sbox => rw [← hf.complete, ← hf.setAuxR rfl, ← ho.auxA rfl]; rfl
  | subword => rw [← hf.complete, ← hf.setAuxR rfl, ← ho.auxA rfl]; rfl
  | rotword => rw [← hf.complete, ← hf.setAuxR rfl, ← ho.auxA rfl]; rfl
  | mixcol => rw [← hf.complete, ← hf.setAuxR rfl, ← ho.auxA rfl]; rfl
  | pad h =>
    rw [← hf.complete, ← hf.writeBlock rfl]
    simp only [exec, execPad, h, if_true, hb rfl]
    rfl
  | unpad hv h =>
    rw [← hf.complete, ← hf.setPadInfo]
    simp only [exec, execUnpad, hv, if_true, hb rfl, h]
    rfl

/-- No command reads or writes the host's list (log 1). -/
theorem exec_withPending {i : Instr} {s t : State} (es : List HostEvent) (h : exec i s = .next t) :
    exec i (s.withPending es) = .next (t.withPending es) :=
  exec_independent (f := (·.withPending es))
    ⟨fun _ _ _ => rfl, fun _ _ _ => rfl, fun _ _ _ => rfl, fun _ => rfl, fun _ _ _ => rfl, fun _ => rfl, fun _ _ => rfl⟩
    ⟨fun _ => rfl, fun _ => rfl, fun _ => rfl, fun _ => rfl, fun _ => rfl, fun _ => rfl⟩ h

end Sys2Proof.Machine
end

