-- ==== Sys2Proof/Tests/Slice0.lean ====
section
/-! SUPPORT. The model's own tests. Every expected value is the spec's: 95_test_vectors.md T1 to T15, V1 to V9, P1 to P7, or a
word written out from the columns of 30_encoding.md R153. The last part gives, for every statement with hypotheses, concrete
states and operands that meet them together. -/

namespace Sys2Proof.Tests

open Sys2Proof Sys2Proof.Machine

-- One proof at a time: many kernel evaluations at once need more memory than the check allows.
set_option Elab.async false

/-! ## Helpers -/

/-- The state a result holds, if it is a next state. -/
def nextOf : Result → Option State
  | .next t => some t
  | .fault _ => none
  | .refused _ => none

/-- The key of 95_test_vectors.md V1, as KEY0..KEY7. -/
def v1Key : Vector Word 8 :=
  #v[0x00010203, 0x04050607, 0x08090A0B, 0x0C0D0E0F, 0x10111213, 0x14151617, 0x18191A1B, 0x1C1D1E1F]

/-- Reset with the V1 key loaded. -/
def keyed : State := { State.reset with key := v1Key }

/-- The V1 engine, with a STATE. -/
def engine (ws : Vector Word 4) : State := { keyed with w := keyExpansion v1Key, kv := true, state := ws }

/-- Reset with a STATE. -/
def holding (ws : Vector Word 4) : State := { State.reset with state := ws }

/-- Reset with scalar operands. -/
def scalars (a b : Word) : State := { State.reset with auxA := a, auxB := b }

/-- STATE = 00112233445566778899aabbccddeeff (T10; V1's plaintext). -/
def pattern : Vector Word 4 := #v[0x00112233, 0x44556677, 0x8899AABB, 0xCCDDEEFF]

/-- What STATE holds after a command. -/
def stateAfter (i : Instr) (s : State) : Option (Vector Word 4) := (nextOf (exec i s)).map (·.state)

/-- What AUX_R holds after a command. -/
def auxAfter (i : Instr) (a b : Word) : Option Word := (nextOf (exec i (scalars a b))).map (·.auxR)

/-- What STATUS reads after a command word. -/
def statusAfter (c : Word) (s : State) : Option Word := (nextOf (perform c s)).map (·.statusWord)

/-! ## WellFormed refuses each ill-formed operand (R153, R155) -/

theorem test_wf_addrk_15 : (Instr.addrk 15).wellFormed = false := by decide
theorem test_wf_round_0 : (Instr.round 0).wellFormed = false := by decide
theorem test_wf_round_14 : (Instr.round 14).wellFormed = false := by decide
theorem test_wf_pad_16 : (Instr.pad 16).wellFormed = false := by decide
theorem test_wf_unpad_17 : (Instr.unpad 17).wellFormed = false := by decide
theorem test_wf_bounds_legal :
    [Instr.addrk 0, .addrk 14, .round 1, .round 13, .pad 0, .pad 15, .unpad 0, .unpad 16, .expand 255, .encrypt 255].all
      Instr.wellFormed = true := by decide

/-! ## Decoding, every constructor (R150, R153: RSV 16 bits, ARG 8 bits, OPC 8 bits) -/

theorem test_decode_nop : decode 0b0000000000000000_00000000_00000000 = .ok .nop := by rfl
theorem test_decode_expand : decode 0b0000000000000000_00100000_00000001 = .ok (.expand 32) := by rfl
theorem test_decode_encrypt : decode 0b0000000000000000_00010000_00000010 = .ok (.encrypt 16) := by rfl
theorem test_decode_addrk : decode 0b0000000000000000_00001110_00010000 = .ok (.addrk 14) := by rfl
theorem test_decode_subbytes : decode 0b0000000000000000_00000000_00010001 = .ok .subbytes := by rfl
theorem test_decode_shiftrows : decode 0b0000000000000000_00000000_00010010 = .ok .shiftrows := by rfl
theorem test_decode_mixcolumns : decode 0b0000000000000000_00000000_00010011 = .ok .mixcolumns := by rfl
theorem test_decode_round : decode 0b0000000000000000_00000111_00010100 = .ok (.round 7) := by rfl
theorem test_decode_finalround : decode 0b0000000000000000_00000000_00010101 = .ok .finalround := by rfl
theorem test_decode_transpose : decode 0b0000000000000000_00000000_00010110 = .ok .transpose := by rfl
theorem test_decode_gfmul : decode 0b0000000000000000_00000000_00100000 = .ok .gfmul := by rfl
theorem test_decode_sbox : decode 0b0000000000000000_00000000_00100001 = .ok .sbox := by rfl
theorem test_decode_subword : decode 0b0000000000000000_00000000_00100010 = .ok .subword := by rfl
theorem test_decode_rotword : decode 0b0000000000000000_00000000_00100011 = .ok .rotword := by rfl
theorem test_decode_mixcol : decode 0b0000000000000000_00000000_00100100 = .ok .mixcol := by rfl
theorem test_decode_pad : decode 0b0000000000000000_00001111_00110000 = .ok (.pad 15) := by rfl
theorem test_decode_unpad : decode 0b0000000000000000_00010000_00110001 = .ok (.unpad 16) := by rfl

/-- R155's three kinds of illegal word, refused by name. -/
theorem test_decode_rejects :
    decode 0x00010000 = .error .reservedBits ∧ decode 0x80001002 = .error .reservedBits ∧
    decode 0x00000003 = .error .unknownOpcode ∧ decode 0x00000025 = .error .unknownOpcode ∧
    decode 0x000000FF = .error .unknownOpcode ∧ decode 0x00000100 = .error .illegalArg ∧
    decode 0x00000F10 = .error .illegalArg ∧ decode 0x00000014 = .error .illegalArg ∧
    decode 0x00000E14 = .error .illegalArg ∧ decode 0x00001030 = .error .illegalArg ∧
    decode 0x00001131 = .error .illegalArg := ⟨rfl, rfl, rfl, rfl, rfl, rfl, rfl, rfl, rfl, rfl, rfl⟩

/-- R158's two examples, from the encoder. -/
theorem test_encode_examples : encode (.expand 32) = 0x00002001 ∧ encode (.encrypt 16) = 0x00001002 := by decide

/-- The table's opcodes are pairwise distinct: no word has two rows (R156). -/
theorem test_opcode_rows_distinct : opcodeTable.Pairwise (fun r q => r.opc ≠ q.opc) := by decide

/-- The host's numbering of a table row gives the decoder's answer, and the next step performs the word. -/
theorem test_decodeTableWord : decodeTableWord 32 0x00000D14 = some (.round 13) ∧ decodeTableWord 32 0x00000E14 = none :=
  ⟨rfl, rfl⟩

theorem test_withFetchWord :
    (nextOf (step (State.reset.withFetchWord 32 0x00001F01))).map (·.statusWord) = some 0x00000204 := by decide +kernel

/-! ## The commands, from the vectors of 95_test_vectors.md -/

/-- T14: NOP changes only LASTCODE. -/
theorem test_nop : nextOf (exec .nop { State.reset with lastCode := 5 }) = some State.reset := by decide

/-- T6: W[7], W[8], W[12], W[59] of the V1 key. -/
theorem test_expand_v1 :
    (nextOf (exec (.expand 32) keyed)).map (fun t => (t.kv, t.w[7], t.w[8], t.w[12], t.w[59])) =
      some (true, 0x1C1D1E1F, 0xA573C29F, 0x1651A8CD, 0x6D68DE36) := by decide +kernel

/-- V7, third row: a wrong length after a successful EXPAND clears KV, sets code 2, and W stays. -/
theorem test_expand_31 :
    (nextOf (exec (.expand 31) { State.reset with kv := true, w := Vector.replicate 60 7 })).map
      (fun t => (t.statusWord, t.w[0], t.w[59])) = some (0x00000204, 7, 7) := by decide +kernel

/-- V1: the known-answer test. -/
theorem test_encrypt_v1 :
    stateAfter (.encrypt 16) (engine pattern) = some #v[0x8EA2B7CA, 0x516745BF, 0xEAFC4990, 0x4B496089] := by
  decide +kernel

/-- T14: a wrong declared block length. -/
theorem test_encrypt_15 : statusAfter 0x00000F02 { State.reset with kv := true } = some 0x00000305 := by decide +kernel

/-- T10. -/
theorem test_addrk_0 :
    stateAfter (.addrk 0) (engine pattern) = some #v[0x00102030, 0x40506070, 0x8090A0B0, 0xC0D0E0F0] := by decide +kernel

/-- T14: without an engine. -/
theorem test_addrk_no_key : statusAfter 0x00000010 State.reset = some 0x00000504 := by decide +kernel

/-- T10. -/
theorem test_subbytes :
    stateAfter .subbytes (holding pattern) = some #v[0x638293C3, 0x1BFC33F5, 0xC4EEACEA, 0x4BC12816] := by decide +kernel

/-- T10. -/
theorem test_shiftrows :
    stateAfter .shiftrows (holding pattern) = some #v[0x0055AAFF, 0x4499EE33, 0x88DD2277, 0xCC1166BB] := by decide +kernel

/-- T10. -/
theorem test_mixcolumns :
    stateAfter .mixcolumns (holding pattern) = some #v[0x22770055, 0x66334411, 0xAAFF88DD, 0xEEBBCC99] := by decide +kernel

/-- T8: round 0's output to round 1's. -/
theorem test_round_1 :
    stateAfter (.round 1) (engine #v[0x00102030, 0x40506070, 0x8090A0B0, 0xC0D0E0F0]) =
      some #v[0x4F637606, 0x43E0AA85, 0xEFA72132, 0x01A4E705] := by decide +kernel

/-- T8: round 12's output to round 13's. -/
theorem test_round_13 :
    stateAfter (.round 13) (engine #v[0x51660495, 0x43539503, 0x14FB86E4, 0x01922521]) =
      some #v[0x627BCEB9, 0x999D5AAA, 0xC945ECF4, 0x23F56DA5] := by decide +kernel

/-- T8: round 13's output to the ciphertext. -/
theorem test_finalround :
    stateAfter .finalround (engine #v[0x627BCEB9, 0x999D5AAA, 0xC945ECF4, 0x23F56DA5]) =
      some #v[0x8EA2B7CA, 0x516745BF, 0xEAFC4990, 0x4B496089] := by decide +kernel

/-- T10. -/
theorem test_transpose :
    stateAfter .transpose (holding pattern) = some #v[0x004488CC, 0x115599DD, 0x2266AAEE, 0x3377BBFF] := by decide +kernel

/-- T1's table, and T14's row with high bits set in both operands. -/
theorem test_gfmul :
    gfMul 0x57 0x83 = 0xC1 ∧ gfMul 0x57 0x13 = 0xFE ∧ gfMul 0x02 0x80 = 0x1B ∧ gfMul 0x03 0xFF = 0x1A ∧
    gfMul 0xAB 0x00 = 0x00 ∧ gfMul 0x01 0xAB = 0xAB ∧ gfMul 0xFF 0xFF = 0x13 ∧ gfMul 0x80 0x80 = 0x9A ∧
    gfMul 0x53 0xCA = 0x01 ∧ gfMul 0x0E 0x0B = 0x62 := by decide
theorem test_gfmul_high_bits : auxAfter .gfmul 0x00000157 0xFFFFFF83 = some 0x000000C1 := by decide +kernel

/-- T3. -/
theorem test_sbox :
    [0x00000000, 0x00000001, 0xFFFFFF53, 0x00000010, 0x0000009A, 0x000000CA, 0x00000052, 0x000000FF].map
      (fun a => auxAfter .sbox a 0) =
      [some 0x63, some 0x7C, some 0xED, some 0xCA, some 0xB8, some 0x74, some 0x00, some 0x16] := by decide +kernel

/-- T5. -/
theorem test_subword :
    auxAfter .subword 0x1D1E1F1C 0 = some 0xA472C09C ∧ auxAfter .subword 0x12345678 0 = some 0xC918B1BC := by decide +kernel

/-- T5. -/
theorem test_rotword :
    auxAfter .rotword 0x1C1D1E1F 0 = some 0x1D1E1F1C ∧ auxAfter .rotword 0x12345678 0 = some 0x34567812 := by decide +kernel

/-- T4. -/
theorem test_mixcol :
    auxAfter .mixcol 0xDB135345 0 = some 0x8E4DA1BC ∧ auxAfter .mixcol 0x01000000 0 = some 0x02010103 ∧
    auxAfter .mixcol 0xD4D4D4D5 0 = some 0xD5D5D7D6 := by decide +kernel

/-- T11. -/
theorem test_pad :
    stateAfter (.pad 5) (holding #v[0x20212223, 0x24252627, 0x28292A2B, 0x2C2D2E2F]) =
      some #v[0x20212223, 0x240B0B0B, 0x0B0B0B0B, 0x0B0B0B0B] ∧
    stateAfter (.pad 0) (holding #v[0x20212223, 0x24252627, 0x28292A2B, 0x2C2D2E2F]) =
      some #v[0x10101010, 0x10101010, 0x10101010, 0x10101010] := by decide +kernel

/-- One row of T12: STATUS and PADINFO after `UNPAD vlen`. -/
def unpadRow (ws : Vector Word 4) (vlen : Byte) : Option (Word × Word) :=
  (nextOf (exec (.unpad vlen) (holding ws))).map fun t => (t.statusWord, t.padInfoWord)

/-- T12's accepted rows. -/
theorem test_unpad_accepts :
    unpadRow #v[0x68656C6C, 0x6F0B0B0B, 0x0B0B0B0B, 0x0B0B0B0B] 16 = some (0x00000002, 0x0000050B) ∧
    unpadRow #v[0x10101010, 0x10101010, 0x10101010, 0x10101010] 16 = some (0x00000002, 0x00000010) ∧
    unpadRow #v[0xAAAAAAAA, 0xAAAAAAAA, 0xAAAAAAAA, 0xAAAAAA00] 16 = some (0x00000002, 0x00001000) ∧
    unpadRow #v[0x00000000, 0x00000000, 0x00000000, 0x00020202] 3 = some (0x00000002, 0x00000102) := by decide +kernel

/-- T12's rejected rows. -/
theorem test_unpad_rejects :
    unpadRow #v[0xAAAAAAAA, 0xAAAAAAAA, 0xAAAAAAAA, 0x05050504] 16 = some (0x00000404, 0) ∧
    unpadRow #v[0xAAAAAAAA, 0xAAAAAAAA, 0xAAAAAAAA, 0xAAAAAA11] 16 = some (0x00000404, 0) ∧
    unpadRow #v[0x0F101010, 0x10101010, 0x10101010, 0x10101010] 16 = some (0x00000404, 0) ∧
    unpadRow #v[0x00000000, 0x00000000, 0x00000000, 0x00020202] 1 = some (0x00000404, 0) ∧
    unpadRow #v[0x00000000, 0x00000000, 0x00000000, 0x04040404] 3 = some (0x00000404, 0) ∧
    unpadRow #v[0x00000000, 0x00000000, 0x00000000, 0x00000000] 0 = some (0x00000404, 0) ∧
    unpadRow #v[0x00000000, 0x00000000, 0x00000000, 0x00000000] 17 = some (0x00000104, 0) := by decide +kernel

/-- T14's rows from reset. -/
theorem test_status_from_reset :
    ([0x00000000, 0x00000100, 0x00001002, 0x00000F02, 0x00000010, 0x00000015, 0x00000003, 0x000000FF, 0x00000F30, 0x00001030,
      0x00001031, 0x00001131, 0x00010000, 0x00000111, 0x00000025, 0x00000032] : List Word).map
        (statusAfter · State.reset) =
      [some 0x00000000, some 0x00000104, some 0x00000504, some 0x00000504, some 0x00000504, some 0x00000504, some 0x00000104,
        some 0x00000104, some 0x00000000, some 0x00000104, some 0x00000002, some 0x00000104, some 0x00000104, some 0x00000104,
        some 0x00000104, some 0x00000104] := by decide +kernel

/-- T14's rows with an engine. -/
theorem test_status_with_engine :
    ([0x00001002, 0x00000F02, 0x00001102, 0x00000E10, 0x00000F10, 0x00000014, 0x00000D14, 0x00000E14, 0x00000115,
      0x80001002] : List Word).map (statusAfter · { State.reset with kv := true }) =
      [some 0x00000001, some 0x00000305, some 0x00000305, some 0x00000001, some 0x00000105, some 0x00000105, some 0x00000001,
        some 0x00000105, some 0x00000105, some 0x00000105] := by decide +kernel

/-! ## The bus, reset and the host (T14's second table, T15, P4, V3) -/

/-- What a host reads, running a program from a state. -/
def readsOf (es : List HostEvent) (s : State) : Option (List Word) :=
  match runHost es s with
  | .next (_, vs) => some vs
  | .fault _ => none
  | .refused _ => none

/-- T15's accepted accesses, and its bus errors. -/
theorem test_bus_T15 :
    memRead 0x000 4 State.reset = some 0 ∧ memRead 0x1EC 4 State.reset = some 0 ∧ memRead 0x002 4 State.reset = none ∧
    memRead 0x04C 4 State.reset = none ∧ memRead 0x0FC 4 State.reset = none ∧ memRead 0x1F0 4 State.reset = none ∧
    memRead 0xFFC 4 State.reset = none ∧ nextOf (memWrite 0x004 4 0x12345678 State.reset) = some State.reset ∧
    [0x048, 0x00C, 0x100, 0x031].all (fun a => (nextOf (memWrite a 4 0 State.reset)).isNone) = true ∧
    memRead 0x000 1 State.reset = none := by decide +kernel

/-- T14's register behaviour: CFG's reserved bits, STATUS.ERR's write-1-to-clear, CMD's read. -/
theorem test_register_behaviour :
    readsOf [wr .cfg 0xFFFFFFFF, rd .cfg] State.reset = some [0x00000001] ∧
    readsOf [wr .cmd 0x00001002, wr .status 0xFFFFFFFB, rd .status, wr .status 0xFFFFFFFF, rd .status] State.reset =
      some [0x00000504, 0x00000500] ∧
    readsOf [wr .auxA 0xDEADBEEF, wr .auxB 0x01234567, rd .auxA, rd .auxB] State.reset = some [0xDEADBEEF, 0x01234567] ∧
    readsOf [wr .cmd 0x12345678, rd .cmd, rd .status] State.reset = some [0x00000000, 0x00000104] := by decide +kernel

/-- T14: the interrupt line follows ERR and ERRIE. -/
theorem test_irq :
    (nextOf (perform 0x00001002 State.reset)).map (·.irq) = some false ∧
    (nextOf (memWrite 0x008 4 1 { State.reset with err := true })).map (·.irq) = some true := by decide +kernel

/-- P4 row 26: a bus error stops the step, and the host that goes on finds nothing changed and data 0. -/
theorem test_bus_error_P4 :
    nextOf (step { State.reset with pending := [.access (.write 0x100 4 0)] }) = none ∧
    nextOf (stepPastBusError { State.reset with pending := [.access (.write 0x100 4 0)] }) =
      some { State.reset with response := some .busError } ∧ Response.readData .busError = 0 := by decide +kernel

/-- R600: reset from a state that holds everything. -/
theorem test_reset_input :
    nextOf (step { engine pattern with err := true, errie := true, pv := true, pending := [.assertReset] }) =
      some { State.reset with resetAsserted := true } := by decide +kernel

/-- V3: padded sequences, and unpadding them. -/
theorem test_pad_sequences :
    padSeq [] = List.replicate 16 0x10 ∧
    padSeq [0x68, 0x65, 0x6C, 0x6C, 0x6F] = [0x68, 0x65, 0x6C, 0x6C, 0x6F] ++ List.replicate 11 0x0B ∧
    unpadSeq (List.replicate 15 0xAA ++ [0x11]) = none ∧ unpadSeq [2, 2, 2] = some [2] ∧ unpadSeq [4, 4, 4] = none := by
  decide +kernel

/-- T13, the 5-byte row, by the host procedure of R431. -/
theorem test_encrypt_message :
    ((readsOf (encryptMessageProgram [0x68, 0x65, 0x6C, 0x6C, 0x6F] (Vector.replicate 16 0)) (engine pattern)).bind
      encryptMessageResult) =
      some [0x91, 0x68, 0x44, 0x87, 0xC3, 0x4C, 0x34, 0x56, 0xEB, 0x4E, 0x90, 0x1C, 0xEF, 0x88, 0x4A, 0x1E] := by decide +kernel

/-- P5's two buffers and the empty one, by the host procedure of R432. -/
theorem test_unpad_buffer :
    (readsOf (unpadBufferProgram ([0x68, 0x65, 0x6C, 0x6C, 0x6F] ++ List.replicate 11 0x0B) (Vector.replicate 16 9))
        State.reset).bind
      (unpadBufferResult ([0x68, 0x65, 0x6C, 0x6C, 0x6F] ++ List.replicate 11 0x0B)) = some [0x68, 0x65, 0x6C, 0x6C, 0x6F] ∧
    (readsOf (unpadBufferProgram [2, 2, 2] (Vector.replicate 16 9)) State.reset).bind (unpadBufferResult [2, 2, 2]) =
      some [2] ∧
    (readsOf (unpadBufferProgram [] (Vector.replicate 16 0)) State.reset).bind (unpadBufferResult []) = none := by
  decide +kernel

/-- R432's procedure on 20 bytes, a window shorter than the buffer; the expected bytes are R371's. -/
theorem test_unpad_buffer_long :
    (readsOf (unpadBufferProgram (List.replicate 17 7 ++ [3, 3, 3]) (Vector.replicate 16 9)) State.reset).bind
      (unpadBufferResult (List.replicate 17 7 ++ [3, 3, 3])) = some (List.replicate 17 7) := by decide +kernel

/-! ## Witnesses: each statement's hypotheses, met together, clause by clause at the ends of their ranges -/

/-- Reset with KV set: enough wherever a statement asks only for an engine. -/
def loaded : State := { State.reset with kv := true }

/-- Reset with one event to come. -/
def awaiting (e : HostEvent) : State := { State.reset with pending := [e] }

theorem witness_DecodeOfEncode :
    (Instr.addrk 14).wellFormed = true ∧ (Instr.round 1).wellFormed = true ∧ (Instr.round 13).wellFormed = true ∧
    (Instr.pad 15).wellFormed = true ∧ (Instr.unpad 16).wellFormed = true := by decide

theorem witness_EncodeOfDecode : decode 0x00000D14 = .ok (.round 13) ∧ decode 0x0000FF01 = .ok (.expand 255) := ⟨rfl, rfl⟩

/-- One word of each of R155's kinds, at the ends of its ranges. -/
theorem witness_IllegalWordsComplete :
    [0x00010000, 0x80001002, 0x00000003, 0x0000000F, 0x00000017, 0x0000001F, 0x00000025, 0x0000002F, 0x00000032, 0x000000FF,
      0x00000100, 0x00000111, 0x00000115, 0x00000116, 0x00000120, 0x00000124, 0x00000F10, 0x0000FF10, 0x00000014, 0x00000E14,
      0x00001030, 0x00001131].all (fun c : Word => decide (IllegalWord c)) = true := by decide

theorem witness_LegalWordsPerformTheirCommand :
    [0x00000000, 0x0000FF01, 0x00000002, 0x00000E10, 0x00000114, 0x00000D14, 0x00000024, 0x00000F30, 0x00000031,
      0x00001031].all (fun c : Word => !decide (IllegalWord c)) = true := by decide

theorem witness_NopCommand : opcField 0x00000100 = 0x00 ∧ (0x00000100 : Word) ≠ 0x00000000 := by decide

theorem witness_ExpandCommand :
    (31 : Byte).toNat ≠ 32 ∧ (33 : Byte).toNat ≠ 32 ∧ opcField 0x80002001 = 0x01 ∧ rsvField 0x80002001 ≠ 0 := by decide

theorem witness_KeyExpansionRecurrence :
    (7 : Fin 60).val < 8 ∧ 8 ≤ (8 : Fin 60).val ∧ (8 : Fin 60).val % 8 = 0 ∧ (12 : Fin 60).val % 8 = 4 ∧
    8 ≤ (59 : Fin 60).val := by decide

theorem witness_EncryptCommand :
    loaded.kv = true ∧ State.reset.kv = false ∧ (15 : Byte).toNat ≠ 16 ∧ (17 : Byte).toNat ≠ 16 ∧
    opcField 0x00011002 = 0x02 ∧ rsvField 0x00011002 ≠ 0 := by decide

theorem witness_AddrkCommand :
    loaded.kv = true ∧ State.reset.kv = false ∧
    (opcField 0x00000F10 = 0x10 ∧ 14 < (argField 0x00000F10).toNat) ∧ (opcField 0x00010010 = 0x10 ∧ rsvField 0x00010010 ≠ 0) := by
  decide

theorem witness_StateCommands :
    [(0x11, 0x00000111), (0x12, 0x00000112), (0x13, 0x80000013), (0x16, 0x0000FF16)].all
      (fun p : Byte × Word => decide (opcField p.2 = p.1 ∧ p.2 ≠ p.1.setWidth 32)) = true := by decide

theorem witness_MixcolumnsCommand (s : State) (c : Fin 4) :
    ∃ b0 b1 b2 b3 : Byte,
      s.block[4 * c.val] = b0 ∧ s.block[4 * c.val + 1] = b1 ∧ s.block[4 * c.val + 2] = b2 ∧ s.block[4 * c.val + 3] = b3 :=
  ⟨_, _, _, _, rfl, rfl, rfl, rfl⟩

theorem witness_RoundCommand :
    loaded.kv = true ∧ State.reset.kv = false ∧ (1 ≤ (1 : Fin 15).val ∧ (13 : Fin 15).val ≤ 13) ∧
    (opcField 0x00000014 = 0x14 ∧ (argField 0x00000014).toNat = 0) ∧
    (opcField 0x00000E14 = 0x14 ∧ 14 ≤ (argField 0x00000E14).toNat) ∧
    (opcField 0x00010114 = 0x14 ∧ rsvField 0x00010114 ≠ 0) := by decide

theorem witness_FinalroundCommand :
    loaded.kv = true ∧ State.reset.kv = false ∧ opcField 0x00000115 = 0x15 ∧ (0x00000115 : Word) ≠ 0x00000015 := by decide

theorem witness_ScalarCommands :
    [(0x20, 0x00000120), (0x21, 0x00000121), (0x22, 0x80000022), (0x23, 0x00010023), (0x24, 0x0000FF24)].all
      (fun p : Byte × Word => decide (opcField p.2 = p.1 ∧ p.2 ≠ p.1.setWidth 32)) = true := by decide

theorem witness_MixcolCommand :
    (scalars 0xDB135345 0).auxA = (0xDB : Byte) ++ (0x13 : Byte) ++ (0x53 : Byte) ++ (0x45 : Byte) := by decide

theorem witness_PadCommand :
    ((0 : Fin 16).val < (1 : Fin 16).val ∧ (15 : Fin 16).val ≤ (15 : Fin 16).val) ∧
    (opcField 0x00001030 = 0x30 ∧ 15 < (argField 0x00001030).toNat) ∧ (opcField 0x00010030 = 0x30 ∧ rsvField 0x00010030 ≠ 0) := by
  decide

/-- T12's rows: n = 0 and n = 16 with VLEN 16, n = 2 with VLEN 3; n > 16, n > VLEN, a mismatch, VLEN 0. -/
theorem witness_UnpadCommand :
    PaddingValid (holding #v[0xAAAAAAAA, 0xAAAAAAAA, 0xAAAAAAAA, 0xAAAAAA00]).block 16 ∧
    PaddingValid (holding #v[0x10101010, 0x10101010, 0x10101010, 0x10101010]).block 16 ∧
    PaddingValid (holding #v[0x00000000, 0x00000000, 0x00000000, 0x00020202]).block 3 ∧
    ¬ PaddingValid (holding #v[0xAAAAAAAA, 0xAAAAAAAA, 0xAAAAAAAA, 0xAAAAAA11]).block 16 ∧
    ¬ PaddingValid (holding #v[0x00000000, 0x00000000, 0x00000000, 0x00020202]).block 1 ∧
    ¬ PaddingValid (holding #v[0x0F101010, 0x10101010, 0x10101010, 0x10101010]).block 16 ∧
    ¬ PaddingValid State.reset.block 0 ∧
    (opcField 0x00001131 = 0x31 ∧ 16 < (argField 0x00001131).toNat) ∧ (opcField 0x00010031 = 0x31 ∧ rsvField 0x00010031 ≠ 0) := by
  decide +kernel

theorem witness_GfMulLaws : (1 : Byte) ≠ 0 ∧ (0xFF : Byte) ≠ 0 := by decide

/-- T1's pair of inverses. -/
theorem witness_SboxIsInverseThenAffine : gfMul 0x53 0xCA = 1 ∧ gfMul 0x01 0x01 = 1 := by decide

theorem witness_CommandsThatUndoThemselves : loaded.kv = true := rfl

theorem witness_RoundsComposeToEncrypt : loaded.kv = true := rfl

/-- A message of two equal blocks (V5), and the last block's index. -/
theorem witness_EncryptMessageBlocks :
    let p : List Byte := List.replicate 32 0xAA
    (0 < p.length / 16 + 1 ∧ 1 < p.length / 16 + 1 ∧ 2 < p.length / 16 + 1) ∧
    ((padSeq p).drop (16 * 0)).take 16 = ((padSeq p).drop (16 * 1)).take 16 := by decide +kernel

/-- One failing word for each code 1 to 5. -/
theorem witness_FailingCommandWritesNoData :
    (nextOf (perform 0x00000100 loaded)).map (·.lastCode) = some 1 ∧
    (nextOf (perform 0x00001F01 loaded)).map (·.lastCode) = some 2 ∧
    (nextOf (perform 0x00000F02 loaded)).map (·.lastCode) = some 3 ∧
    (nextOf (perform 0x00000031 loaded)).map (·.lastCode) = some 4 ∧
    (nextOf (perform 0x00001002 State.reset)).map (·.lastCode) = some 5 := by decide +kernel

theorem witness_KeyNotLoaded :
    ((Instr.round 13).wellFormed = true ∧ needsKey (.round 13) = true ∧ State.reset.kv = false) ∧
    (needsKey (.unpad 0) = false ∧ ∃ t, exec (.unpad 0) State.reset = .next t) ∧
    (needsKey (.expand 31) = false ∧ ∃ t, exec (.expand 31) State.reset = .next t) :=
  ⟨by decide, ⟨rfl, _, rfl⟩, rfl, _, rfl⟩

theorem witness_ErrDoesNotBlock : ∃ t, perform 0x00000030 State.reset = .next t := ⟨_, rfl⟩

/-- A word that changes STATE, one that changes AUX_R and one that changes W. -/
theorem witness_RegistersWrittenByCommands :
    (nextOf (perform 0x00000011 State.reset)).map (·.state) = some (Vector.replicate 4 0x63636363) ∧
    (nextOf (perform 0x00000021 State.reset)).map (·.auxR) = some 0x63 ∧
    (nextOf (perform 0x00002001 State.reset)).map (·.w[8]) = some 0x62636363 := by decide +kernel

/-- NOP meets every clause's hypothesis at once. -/
theorem witness_RegistersReadByCommands :
    (∃ t, perform 0x00000000 State.reset = .next t) ∧ opcField 0x00000000 ≠ 0x01 ∧ opcField 0x00000000 ≠ 0x02 ∧
    ¬ (0x10 ≤ (opcField 0x00000000).toNat ∧ (opcField 0x00000000).toNat ≤ 0x16) ∧ opcField 0x00000000 ≠ 0x30 ∧
    opcField 0x00000000 ≠ 0x31 ∧ opcField 0x00000000 ≠ 0x10 ∧ opcField 0x00000000 ≠ 0x14 ∧ opcField 0x00000000 ≠ 0x15 ∧
    ¬ (0x20 ≤ (opcField 0x00000000).toNat ∧ (opcField 0x00000000).toNat ≤ 0x24) ∧ opcField 0x00000000 ≠ 0x20 := by
  exact ⟨⟨_, rfl⟩, by decide⟩

/-- A step by EXPAND that changes W and KV (T7's zero key), and one by reset. -/
theorem witness_ScheduleWrittenOnlyByExpand :
    (nextOf (step (awaiting (.access (.write 0x000 4 0x00002001))))).map (fun t => (t.w[8], t.kv)) = some (0x62636363, true) ∧
    (nextOf (step { loaded with pending := [.assertReset] })).map (·.kv) = some false := by decide +kernel

theorem witness_PadInfoWrittenOnlyByUnpad :
    (nextOf (step (awaiting (.access (.write 0x000 4 0x00001031))))).map (·.pv) = some true ∧
    (nextOf (step { State.reset with pv := true, pending := [.assertReset] })).map (·.pv) = some false := by decide +kernel

theorem witness_ErrClearedOnlyByHost :
    (nextOf (step { State.reset with err := true, pending := [.access (.write 0x004 4 4)] })).map (·.err) = some false ∧
    (nextOf (step { State.reset with err := true, pending := [.assertReset] })).map (·.err) = some false := by decide +kernel

theorem witness_NoEngineUntilExpand :
    (awaiting (.access (.read 0x004 4))).kv = false ∧ (awaiting (.access (.read 0x004 4))).w = Vector.replicate 60 0 ∧
    ∃ t, step (awaiting (.access (.read 0x004 4))) = .next t := ⟨rfl, rfl, _, rfl⟩

theorem witness_BusErrorChangesNothing :
    (awaiting (.access (.read 0x002 4))).resetAsserted = false ∧ (BusAccess.read 0x002 4).accepted = false ∧
    (BusAccess.read 0x000 1).accepted = false ∧ (BusAccess.read 0x1F0 4).accepted = false ∧
    (BusAccess.write 0x048 4 0).accepted = false ∧ (BusAccess.write 0x1EC 4 0).accepted = false := by decide +kernel

/-- The first and the last register of the range. -/
theorem witness_ReadAfterWrite :
    (∃ t, memWrite 0x010 4 1 State.reset = .next t) ∧ (∃ t, memWrite 0x044 4 1 State.reset = .next t) ∧
    0x010 ≤ (0x010 : Addr).toNat ∧ (0x044 : Addr).toNat ≤ 0x044 ∧ (0x010 : Addr).toNat % 4 = 0 ∧ (0x044 : Addr).toNat % 4 = 0 :=
  ⟨⟨_, rfl⟩, ⟨_, rfl⟩, by decide⟩

theorem witness_ReadsHaveNoSideEffect :
    (awaiting (.access (.read 0x1EC 4))).resetAsserted = false ∧
    memRead 0x1EC 4 (awaiting (.access (.read 0x1EC 4))) = some 0 := by decide +kernel

/-- A command, a read, and the first and the last address of the plain writes. -/
theorem witness_IrqLevel :
    (∃ t, perform 0x00000100 { State.reset with errie := true } = .next t) ∧
    (∃ t, performAccess State.reset (.read 0x004 4) = .next t) ∧
    (0x010 ≤ (0x010 : Addr).toNat ∧ (0x010 : Addr).toNat ≤ 0x044 ∧ (0x010 : Addr).toNat % 4 = 0) ∧
    (0x010 ≤ (0x044 : Addr).toNat ∧ (0x044 : Addr).toNat ≤ 0x044 ∧ (0x044 : Addr).toNat % 4 = 0) :=
  ⟨⟨_, rfl⟩, ⟨_, rfl⟩, by decide, by decide⟩

theorem witness_ResetInput :
    (awaiting .assertReset).pending = .assertReset :: [] ∧
    ({ awaiting .releaseReset with resetAsserted := true } : State).pending = .releaseReset :: [] ∧
    ({ awaiting .releaseReset with resetAsserted := true } : State).resetAsserted = true ∧
    ({ awaiting (.access (.read 0x000 4)) with resetAsserted := true } : State).pending = .access (.read 0x000 4) :: [] :=
  ⟨rfl, rfl, rfl, rfl⟩

theorem witness_StepRunsTheDecodedCommand :
    (awaiting (.access (.write 0x000 4 0x00000D14))).pending = .access (.write 0x000 4 0x00000D14) :: [] ∧
    (awaiting (.access (.write 0x000 4 0x00000D14))).resetAsserted = false ∧ decode 0x00000D14 = .ok (.round 13) :=
  ⟨rfl, rfl, rfl⟩

/-- Both sides of the equivalence: an event the host may make, and one it may not. -/
theorem witness_StepCompletesForEveryAcceptedEvent :
    (awaiting (.access (.write 0x000 4 0))).hostWellBehaved = true ∧
    (awaiting (.access (.write 0x100 4 0))).hostWellBehaved = false ∧
    ({ awaiting (.access (.read 0x000 4)) with resetAsserted := true } : State).hostWellBehaved = false := by decide +kernel

/-- A state other than reset that meets the invariant, and a step from it. -/
theorem witness_StepKeepsInvariant :
    State.Inv { awaiting (.access (.write 0x000 4 0x00001031)) with auxA := 1, lastCode := 5, err := true } ∧
    ∃ t, step { awaiting (.access (.write 0x000 4 0x00001031)) with auxA := 1, lastCode := 5, err := true } = .next t :=
  ⟨⟨by unfold State.CodeLegal; decide, by unfold State.PadInfoLegal; decide, fun h => absurd h Bool.false_ne_true,
    fun h => absurd h Bool.false_ne_true⟩, _, rfl⟩

theorem witness_HostProgramIsARunOfSteps :
    (readsOf [wr .auxA 5, rd .auxA] (State.reset.withPending [.assertReset])) = some [5] := by decide +kernel

theorem witness_ConstructProcedure :
    State.reset.resetAsserted = false ∧ (List.replicate 32 (0 : Byte)).length = 32 ∧ (List.replicate 31 (0 : Byte)).length ≠ 32 :=
  ⟨rfl, by simp, by simp⟩

theorem witness_EncryptMessageProcedure : loaded.kv = true ∧ loaded.err = false ∧ loaded.resetAsserted = false := by decide

theorem witness_PadCompletesTheMessage :
    State.reset.resetAsserted = false ∧ 0 < (List.replicate 16 (0 : Byte)).length / 16 := by decide

theorem witness_UnpadBufferProcedure : State.reset.resetAsserted = false := rfl

end Sys2Proof.Tests
end

section
/-! PROOFS. Who writes and who reads which register (10_state.md R51, R56, R58, R59), the words software reads (R61, R63,
R64), and a command issued by a write to CMD (R65). -/

namespace Sys2Proof

/-- A row of R153's table spells a legal command of the row's opcode, with the operand it is given. -/
theorem opcodeTable_row_command : ∀ row ∈ opcodeTable, ∀ arg : Byte, row.argMin ≤ arg.toNat → arg.toNat ≤ row.argMax →
    (row.command arg).opcode = row.opc ∧ (row.command arg).arg = arg ∧ (row.command arg).wellFormed = true := by
  have eq_zero_of_legal : ∀ arg : Byte, arg.toNat = 0 → 0 = arg := fun arg h => by bv_omega
  simpa +contextual [opcodeTable, Instr.opcode, Instr.arg, Instr.wellFormed] using eq_zero_of_legal

/-- The inversion of the decoder: what decodes is legal, and the word is its encoding (R152, R156). -/
theorem decode_sound {c : Word} {i : Instr} (h : decode c = .ok i) : i.wellFormed = true ∧ c = encode i := by
  obtain ⟨hrsv, row, hrow, hopc, hmin, hmax, rfl⟩ := decode_cases h
  obtain ⟨hop, harg, hwf⟩ := opcodeTable_row_command row hrow _ hmin hmax
  obtain ⟨ho, ha, hr⟩ := Laws.Fields.fields_encodeFields (row.command (argField c)).opcode (row.command (argField c)).arg
  exact ⟨hwf, word_eq_of_fields (by rw [encode, ho, hop, hopc]) (by rw [encode, ha, harg]) (by rw [encode, hr, hrsv])⟩

/-- The opcode of a word that decodes (R158). -/
theorem opcField_of_decode {c : Word} {i : Instr} (h : decode c = .ok i) : opcField c = i.opcode := by
  rw [(decode_sound h).2]
  exact (Laws.Fields.fields_encodeFields _ _).1

end Sys2Proof

namespace Sys2Proof.Machine

/-- The opcodes of the commands that read the schedule (60_exceptions.md R501). -/
theorem needsKey_iff (i : Instr) :
    needsKey i = true ↔ i.opcode = 0x02 ∨ i.opcode = 0x10 ∨ i.opcode = 0x14 ∨ i.opcode = 0x15 := by
  cases i <;> simp [needsKey, Instr.opcode]

/-- The opcodes of the commands that read STATE (R51). -/
theorem readsState_iff (i : Instr) :
    readsState i = true ↔ i.opcode = 0x02 ∨ (0x10 ≤ i.opcode.toNat ∧ i.opcode.toNat ≤ 0x16) ∨ i.opcode = 0x30 ∨
      i.opcode = 0x31 := by
  cases i <;> simp [readsState, Instr.opcode]

/-- The opcodes of the scalar commands (R51). -/
theorem usesAux_iff (i : Instr) : usesAux i = true ↔ 0x20 ≤ i.opcode.toNat ∧ i.opcode.toNat ≤ 0x24 := by
  cases i <;> simp [usesAux, Instr.opcode]

section EffectFrame

/-! What each command leaves unchanged, and which commands write what (R51). -/

variable {s u : State} {i : Instr} {code : ResultCode}

theorem Effect.key_eq (he : Effect s i code u) : u.key = s.key := by cases he <;> simp
theorem Effect.auxA_eq (he : Effect s i code u) : u.auxA = s.auxA := by cases he <;> simp
theorem Effect.auxB_eq (he : Effect s i code u) : u.auxB = s.auxB := by cases he <;> simp
theorem Effect.errie_eq (he : Effect s i code u) : u.errie = s.errie := by cases he <;> simp

/-- STATE is written by ENCRYPT, the commands 0x10 to 0x16, and PAD. -/
theorem Effect.opcode_of_state_ne (he : Effect s i code u) (h : u.state ≠ s.state) :
    i.opcode = 0x02 ∨ (0x10 ≤ i.opcode.toNat ∧ i.opcode.toNat ≤ 0x16) ∨ i.opcode = 0x30 := by
  cases he with
  | encrypt | addrk | subbytes | shiftrows | mixcolumns | round | finalround | transpose | pad => simp [Instr.opcode]
  | _ => simp at h

/-- AUX_R is written by the scalar commands. -/
theorem Effect.usesAux_of_auxR_ne (he : Effect s i code u) (h : u.auxR ≠ s.auxR) : usesAux i = true := by
  cases he with
  | gfmul | sbox | subword | rotword | mixcol => rfl
  | _ => simp at h

/-- W is written by EXPAND 32 alone, which sets KV (R58, R262). -/
theorem Effect.expand_of_w_ne (he : Effect s i code u) (h : u.w ≠ s.w) :
    i = .expand 32 ∧ u.w = keyExpansion s.key ∧ u.kv = true := by
  cases he with
  | @expand len hlen => exact ⟨by rw [show len = 32 by bv_omega], rfl, rfl⟩
  | _ => simp at h

/-- KV is written by EXPAND alone: set for the length 32, cleared for any other (R58, R504). -/
theorem Effect.expand_of_kv_ne (he : Effect s i code u) (h : u.kv ≠ s.kv) :
    ∃ len, i = .expand len ∧ (u.kv = true ↔ len = 32) := by
  cases he with
  | @expand len hlen => exact ⟨len, rfl, by simp only [State.loadSchedule_kv, true_iff]; bv_omega⟩
  | @wrongKeyLength len hlen => exact ⟨len, rfl, by simp only [State.dropEngine_kv, Bool.false_eq_true, false_iff]; bv_omega⟩
  | _ => simp at h

/-- PV and PADINFO are written by a legal UNPAD alone (R59, R504). -/
theorem Effect.unpad_of_padInfo_ne (he : Effect s i code u)
    (h : u.pv ≠ s.pv ∨ u.padN ≠ s.padN ∨ u.padKeep ≠ s.padKeep) : ∃ vlen, i = .unpad vlen ∧ vlen.toNat ≤ 16 := by
  cases he with
  | @badPadding vlen hv | @unpad vlen _ hv => exact ⟨vlen, rfl, hv⟩
  | _ => simp at h

end EffectFrame

/-- The registers that no host access writes: those a command or the reset input alone can change (20_memory.md R104), but for
LASTCODE. -/
structure SameResults (s t : State) : Prop where
  auxR : t.auxR = s.auxR
  w : t.w = s.w
  kv : t.kv = s.kv
  pv : t.pv = s.pv
  padN : t.padN = s.padN
  padKeep : t.padKeep = s.padKeep

/-- A host's write to a register that holds its own value leaves the results of the commands alone (20_memory.md R104). -/
theorem State.writeReg_sameResults {s t : State} {v : Word} {r : Reg} (h : s.writeReg v r = some t) : SameResults s t := by
  cases r with
  | cmd | padInfo | auxR | rk => cases h
  | status | cfg | key | state | auxA | auxB => cases h; exact ⟨rfl, rfl, rfl, rfl, rfl, rfl⟩

/-- A step performs a command, or takes a change of the reset input, or leaves the results of the commands alone. -/
theorem step_results {s t : State} (h : step s = .next t) :
    (∃ c es, s.pending = .access (.write 0x000 4 c) :: es ∧ perform c ((s.withPending es).respond .done) = .next t) ∨
    (∃ es, s.pending = .assertReset :: es ∨ s.pending = .releaseReset :: es) ∨ SameResults s t := by
  rcases step_cases h with ⟨-, rfl⟩ | ⟨e, es, hp, he⟩
  · exact .inr (.inr ⟨rfl, rfl, rfl, rfl, rfl, rfl⟩)
  · rcases takeEvent_cases he with ⟨a, size, v, -, -, -, rfl⟩ | ⟨c, rfl, -, hc⟩ | ⟨r, v, -, -, -, hw⟩ | ⟨rfl, -⟩ | ⟨rfl, -⟩
    · exact .inr (.inr ⟨rfl, rfl, rfl, rfl, rfl, rfl⟩)
    · exact .inl ⟨c, es, hp, hc⟩
    · obtain ⟨hauxR, hsched, hkv, hpv, hpadN, hpadKeep⟩ := State.writeReg_sameResults hw
      exact .inr (.inr ⟨hauxR, hsched, hkv, hpv, hpadN, hpadKeep⟩)
    · exact .inr (.inl ⟨es, .inl hp⟩)
    · exact .inr (.inl ⟨es, .inr hp⟩)

/-- A word that decodes is performed as its command (R152). -/
theorem perform_of_decode {c : Word} {i : Instr} (h : decode c = .ok i) (s : State) : perform c s = exec i s := by
  rw [perform, h]

/-- A command word does not depend on what the command it decodes to does not read. -/
theorem perform_independent {f : State → State} {c : Word} {s t : State}
    (hillegal : (f s).complete .illegalCommand = f (s.complete .illegalCommand))
    (hcommand : ∀ i, decode c = .ok i → CommutesWithWrites f i ∧ KeepsOperands f i s)
    (h : perform c s = .next t) : perform c (f s) = .next (f t) := by
  cases hd : decode c with
  | error e =>
    rw [perform, hd] at h ⊢
    cases h
    exact congrArg Host.Outcome.next hillegal
  | ok i =>
    rw [perform_of_decode hd] at h ⊢
    obtain ⟨hf, ho⟩ := hcommand i hd
    exact exec_independent hf ho h

/-- A scalar command overwrites AUX_R, whatever it held (R51). -/
theorem exec_setAuxR {i : Instr} (h : usesAux i = true) (s : State) (r : Word) : exec i (s.setAuxR r) = exec i s := by
  cases i with
  | gfmul | sbox | subword | rotword | mixcol => rfl
  | _ => cases h

/-- EXPAND 32 loads the schedule (R262). -/
theorem exec_expand {len : Byte} (h : len.toNat = 32) (s : State) :
    exec (.expand len) s = .next ((s.loadSchedule (keyExpansion s.key)).complete .ok) := by
  simp only [exec, execExpand, h, ne_eq, not_true, if_false, State.finishOk]

/-- EXPAND of another length drops the engine (R262, R504). -/
theorem exec_expand_wrongLength {len : Byte} (h : len.toNat ≠ 32) (s : State) :
    exec (.expand len) s = .next (s.dropEngine.complete .invalidKeyLength) := by
  simp only [exec, execExpand, h, ne_eq, not_false_eq_true, if_true, State.raiseErr]

/-- The opcode of EXPAND is its own (R153). -/
theorem eq_expand_of_opcode {i : Instr} (h : i.opcode = 0x01) : ∃ len, i = .expand len := by
  cases i with
  | expand len => exact ⟨len, rfl⟩
  | _ => simp [Instr.opcode] at h

section ReadBy

/-! Each register, and the commands that do not read it (R51): another value there changes nothing else. -/

variable {c : Word} {s t : State} (h : perform c s = .next t)
include h

/-- KEY is read by EXPAND alone. -/
theorem perform_withKey (hc : opcField c ≠ 0x01) (k : Vector Word 8) :
    perform c { s with key := k } = .next { t with key := k } := by
  refine perform_independent (f := fun s => { s with key := k }) rfl (fun i hd => ?_) h
  have hi : i.opcode ≠ 0x01 := opcField_of_decode hd ▸ hc
  constructor <;> constructor
  case left.loadSchedule => exact fun h => absurd h hi
  case right.key => exact fun h => absurd h hi
  all_goals intros; rfl

/-- A command that does not read STATE does not write it either. -/
theorem perform_withState (hc : ∀ i, decode c = .ok i → ¬ readsState i = true) (x : Vector Word 4) :
    perform c { s with state := x } = .next { t with state := x } := by
  refine perform_independent (f := fun s => { s with state := x }) rfl (fun i hd => ?_) h
  constructor <;> constructor
  case left.writeBlock => exact fun h => absurd h (hc i hd)
  case right.state => exact fun h => absurd h (hc i hd)
  all_goals intros; rfl

/-- AUX_A is read by the scalar commands alone. -/
theorem perform_withAuxA (hc : ∀ i, decode c = .ok i → ¬ usesAux i = true) (a : Word) :
    perform c { s with auxA := a } = .next { t with auxA := a } := by
  refine perform_independent (f := fun s => { s with auxA := a }) rfl (fun i hd => ?_) h
  constructor <;> constructor
  case right.auxA => exact fun h => absurd h (hc i hd)
  all_goals intros; rfl

/-- AUX_B is read by GFMUL alone. -/
theorem perform_withAuxB (hc : decode c ≠ .ok .gfmul) (b : Word) :
    perform c { s with auxB := b } = .next { t with auxB := b } := by
  refine perform_independent (f := fun s => { s with auxB := b }) rfl (fun i hd => ?_) h
  constructor <;> constructor
  case right.auxB => exact fun h => absurd (h ▸ hd) hc
  all_goals intros; rfl

/-- A scalar command overwrites AUX_R; every other command keeps it. -/
theorem perform_withAuxR (r : Word) :
    ∃ u, perform c { s with auxR := r } = .next u ∧ u = { t with auxR := u.auxR } ∧ (u.auxR = r ∨ u = t) := by
  by_cases hx : ∃ i, decode c = .ok i ∧ usesAux i = true
  · obtain ⟨i, hd, hi⟩ := hx
    rw [perform_of_decode hd] at h
    exact ⟨t, (perform_of_decode hd _).trans ((exec_setAuxR hi s r).trans h), rfl, .inr rfl⟩
  · refine ⟨{ t with auxR := r }, ?_, rfl, .inl rfl⟩
    refine perform_independent (f := fun s => { s with auxR := r }) rfl (fun i hd => ?_) h
    constructor <;> constructor
    case left.setAuxR => exact fun hi => absurd ⟨i, hd, hi⟩ hx
    all_goals intros; rfl

/-- EXPAND 32 overwrites W; a failing EXPAND and every command that does not read the schedule keep it. -/
theorem perform_withW (hc : ∀ i, decode c = .ok i → ¬ needsKey i = true) (w : Vector Word 60) :
    ∃ u, perform c { s with w := w } = .next u ∧ u = { t with w := u.w } ∧ (u.w = w ∨ u = t) := by
  by_cases hx : ∃ len, decode c = .ok (.expand len)
  · obtain ⟨len, hd⟩ := hx
    simp only [perform_of_decode hd] at h ⊢
    by_cases hlen : len.toNat = 32
    · rw [exec_expand hlen] at h ⊢
      cases h
      exact ⟨_, rfl, rfl, .inr rfl⟩
    · rw [exec_expand_wrongLength hlen] at h ⊢
      cases h
      exact ⟨_, rfl, rfl, .inl rfl⟩
  · refine ⟨{ t with w := w }, ?_, rfl, .inl rfl⟩
    refine perform_independent (f := fun s => { s with w := w }) rfl (fun i hd => ?_) h
    have not_expand : i.opcode ≠ 0x01 := fun hi => by
      obtain ⟨len, rfl⟩ := eq_expand_of_opcode hi
      exact hx ⟨len, hd⟩
    constructor <;> constructor
    case left.loadSchedule => exact fun hi => absurd hi not_expand
    case right.w => exact fun hi => absurd hi (hc i hd)
    all_goals intros; rfl

end ReadBy

/-- The bits of STATUS (R61). -/
theorem State.getLsbD_statusWord (s : State) (k : Nat) :
    s.statusWord.getLsbD k =
      (if k = 0 then s.kv else if k = 1 then s.pv else if k = 2 then s.err
       else if 8 ≤ k ∧ k ≤ 11 then s.lastCode.getLsbD (k - 8) else false) := by
  rw [State.statusWord, BitVec.getLsbD_setWidth]
  by_cases hk : k < 12
  · simp only [BitVec.getLsbD_append, BitVec.getLsbD_ofBool, BitVec.getLsbD_zero]
    interval_cases k <;> simp
  · rw [BitVec.getLsbD_of_ge _ _ (by omega), Bool.and_false, if_neg (by omega), if_neg (by omega), if_neg (by omega),
      if_neg (by omega)]

/-- The bits of CFG (R63). -/
theorem State.getLsbD_cfgWord (s : State) (k : Nat) : s.cfgWord.getLsbD k = (if k = 0 then s.errie else false) := by
  by_cases hk : k = 0
  · subst hk
    simp [State.cfgWord]
  · simp [State.cfgWord, hk]

/-- The bits of PADINFO (R64). -/
theorem State.getLsbD_padInfoWord (s : State) (k : Nat) :
    s.padInfoWord.getLsbD k =
      (if k ≤ 4 then s.padN.getLsbD k else if 8 ≤ k ∧ k ≤ 12 then s.padKeep.getLsbD (k - 8) else false) := by
  rw [State.padInfoWord, BitVec.getLsbD_setWidth]
  by_cases hk : k < 13
  · simp only [BitVec.getLsbD_append, BitVec.getLsbD_zero]
    interval_cases k <;> simp
  · rw [BitVec.getLsbD_of_ge _ _ (by omega), Bool.and_false, if_neg (by omega), if_neg (by omega)]

/-- A step takes the host's next event (R100). -/
theorem step_of_pending {s : State} {e : HostEvent} {es : List HostEvent} (h : s.pending = e :: es) :
    step s = takeEvent (s.withPending es) e := by
  rw [step, stepHost, h]

/-- Settles O39: a step that changes W or KV performs a command or takes a reset, and EXPAND's effect alone writes either. -/
theorem scheduleWrittenOnlyByExpand : Obligations.ScheduleWrittenOnlyByExpand := by
  intro s t h
  rcases step_results h with ⟨c, es, hp, hc⟩ | hreset | hsame
  · rcases perform_cases hc with ⟨-, -, rfl⟩ | ⟨i, code, u, hd, rfl, he⟩
    · exact ⟨fun hw => absurd rfl hw, fun hkv => absurd rfl hkv⟩
    · obtain ⟨-, rfl⟩ := decode_sound hd
      refine ⟨fun hw => .inl ?_, fun hkv => .inl ?_⟩
      · obtain ⟨rfl, hexp, hkv⟩ := he.expand_of_w_ne hw
        exact ⟨es, hp, hexp, hkv⟩
      · obtain ⟨len, rfl, hlen⟩ := he.expand_of_kv_ne hkv
        obtain ⟨hopc, harg, hrsv⟩ := Laws.Fields.expand len
        exact ⟨_, es, hp, hopc, hrsv, by rw [harg]; exact hlen⟩
  · exact ⟨fun _ => .inr hreset, fun _ => .inr hreset⟩
  · exact ⟨fun hw => absurd hsame.w hw, fun hkv => absurd hsame.kv hkv⟩

/-- Settles O40: a step that changes PV or PADINFO performs a command or takes a reset, and UNPAD's effect alone writes them. -/
theorem padInfoWrittenOnlyByUnpad : Obligations.PadInfoWrittenOnlyByUnpad := by
  intro s t h hne
  rcases step_results h with ⟨c, es, hp, hc⟩ | hreset | hsame
  · rcases perform_cases hc with ⟨-, -, rfl⟩ | ⟨i, code, u, hd, rfl, he⟩
    · simp at hne
    · obtain ⟨-, rfl⟩ := decode_sound hd
      obtain ⟨vlen, rfl, hv⟩ := he.unpad_of_padInfo_ne hne
      obtain ⟨hopc, harg, hrsv⟩ := Laws.Fields.unpad vlen
      exact .inl ⟨_, es, hp, hopc, hrsv, by rw [harg]; exact hv⟩
  · exact .inr hreset
  · simp [hsame.pv, hsame.padN, hsame.padKeep] at hne

/-- Settles O37: by the effects a command can have. -/
theorem registersWrittenByCommands : Obligations.RegistersWrittenByCommands := by
  intro c s t h
  rcases perform_cases h with ⟨-, -, rfl⟩ | ⟨i, code, u, hd, rfl, he⟩
  · simp
  · rw [opcField_of_decode hd]
    refine ⟨he.key_eq, he.auxA_eq, he.auxB_eq, he.errie_eq, he.opcode_of_state_ne, fun hr => ?_, fun hw => ?_⟩
    · exact (usesAux_iff i).mp (he.usesAux_of_auxR_ne hr)
    · obtain ⟨rfl, -, -⟩ := he.expand_of_w_ne hw
      rfl

/-- Settles O38: register by register. -/
theorem registersReadByCommands : Obligations.RegistersReadByCommands := by
  intro c s t h
  refine ⟨fun hc => perform_withKey h hc, fun h02 hblock h30 h31 => perform_withState h fun i hd hi => ?_,
    fun h02 h10 h14 h15 => perform_withW h fun i hd hi => ?_, fun hscalar => perform_withAuxA h fun i hd hi => ?_,
    fun h20 => perform_withAuxB h fun hd => h20 (opcField_of_decode hd), perform_withAuxR h⟩
  · rw [readsState_iff, ← opcField_of_decode hd] at hi
    tauto
  · rw [needsKey_iff, ← opcField_of_decode hd] at hi
    tauto
  · rw [usesAux_iff, ← opcField_of_decode hd] at hi
    exact hscalar hi

/-- Settles O49: word by word. -/
theorem registerLayouts : Obligations.RegisterLayouts :=
  fun s k => ⟨s.getLsbD_statusWord k, s.getLsbD_cfgWord k, s.getLsbD_padInfoWord k⟩

/-- Settles O53: the step takes the write to CMD, which performs the word. -/
theorem stepRunsTheDecodedCommand : Obligations.StepRunsTheDecodedCommand := by
  intro s c i es hp hs hd
  calc step s = takeEvent (s.withPending es) (wr .cmd c) := step_of_pending hp
    _ = perform c ((s.withPending es).respond .done) := takeEvent_wr_cmd hs
    _ = exec i ((s.withPending es).respond .done) := perform_of_decode hd _

end Sys2Proof.Machine
end

section
/-! PROOFS. The bus port (20_memory.md): what a read of every register returns and a write of every register does, which
accesses are bus errors, and how the steps of the machine follow the host's events. -/

namespace Sys2Proof.Machine

/-! ## Which addresses decode (R102, R108) -/

/-- The aligned addresses of the reserved ranges (R108). -/
theorem regAtWordOf_eq_none {n : Nat} (h : n % 4 = 0) :
    regAtWordOf n = none ↔ (0x04C ≤ n ∧ n ≤ 0x0FF) ∨ 0x1F0 ≤ n := by
  unfold regAtWordOf
  split_ifs <;> simp only [false_iff, true_iff] <;> omega

/-- The accesses that reach no register (R102, R108). -/
theorem decodeAccess_eq_none {a : Addr} {size : Nat} :
    decodeAccess a size = none ↔
      size ≠ 4 ∨ a.toNat % 4 ≠ 0 ∨ (0x04C ≤ a.toNat ∧ a.toNat ≤ 0x0FF) ∨ 0x1F0 ≤ a.toNat := by
  unfold decodeAccess
  split_ifs with h
  · obtain ⟨hsize, halign⟩ := h
    rw [regAtWordOf_eq_none halign]
    simp only [hsize, halign, ne_eq, not_true, false_or]
  · simp only [true_iff]
    tauto

/-- No two registers share an offset (R108). -/
theorem Reg.offset_inj {q r : Reg} : q.offset = r.offset ↔ q = r := by
  refine ⟨fun h => ?_, congrArg Reg.offset⟩
  have hq := decodeAccess_offset q
  rw [h, decodeAccess_offset] at hq
  exact (Option.some.inj hq).symm

/-! ## Reads (R103) -/

/-- A read fails exactly where no register is reached (R105). -/
theorem memRead_eq_none {a : Addr} {size : Nat} {s : State} : memRead a size s = none ↔ decodeAccess a size = none :=
  Option.map_eq_none_iff

/-- No register holds the host's list (log 1). -/
@[simp] theorem State.readReg_withPending (s : State) (es : List HostEvent) (r : Reg) :
    (s.withPending es).readReg r = s.readReg r := by
  cases r <;> rfl

/-- A read does not see the host's list (log 1). -/
@[simp] theorem memRead_withPending (a : Addr) (size : Nat) (s : State) (es : List HostEvent) :
    memRead a size (s.withPending es) = memRead a size s := by
  rw [memRead, memRead, funext (s.readReg_withPending es)]

/-- Settles O43: every offset of the table is a register's. -/
theorem memReadTable : Obligations.MemReadTable := fun s =>
  ⟨memRead_offset .cmd s, memRead_offset .status s, memRead_offset .cfg s, memRead_offset .padInfo s,
    memRead_offset .auxA s, memRead_offset .auxB s, memRead_offset .auxR s, fun j => memRead_offset (.key j) s,
    fun j => memRead_offset (.state j) s, fun i => memRead_offset (.rk i) s⟩

/-! ## Writes (R104) -/

/-- A write to STATUS acknowledges the error if bit 2 is set (R62). -/
theorem State.writeStatus_eq (s : State) (v : Word) :
    s.writeStatus v = { s with err := if v.getLsbD 2 then false else s.err } := by
  rw [State.writeStatus]
  cases v.getLsbD 2 <;> simp

/-- A write to a register that holds its own value (R104). -/
theorem memWrite_of_writeReg {r : Reg} {v : Word} {s t : State} (hr : r ≠ .cmd) (h : s.writeReg v r = some t) :
    memWrite r.offset 4 v s = .next t := by
  rw [memWrite_offset r v s hr, h]

/-- Settles O44: every offset of the table is a register's. -/
theorem memWriteTable : Obligations.MemWriteTable := by
  intro s v
  refine ⟨memWrite_cmd v s, ?_, memWrite_of_writeReg (r := .cfg) nofun rfl, memWrite_of_writeReg (r := .auxA) nofun rfl,
    memWrite_of_writeReg (r := .auxB) nofun rfl, fun j => memWrite_of_writeReg (r := .key j) nofun rfl,
    fun j => memWrite_of_writeReg (r := .state j) nofun rfl⟩
  rw [← State.writeStatus_eq]
  exact memWrite_of_writeReg (r := .status) nofun rfl

/-! ## Bus errors (R105) -/

/-- A register that R104 lets no bus write reach. -/
def Reg.readOnly : Reg → Bool
  | .padInfo | .auxR | .rk _ => true
  | .cmd | .status | .cfg | .key _ | .state _ | .auxA | .auxB => false

/-- Where the read-only registers stand (R108). -/
theorem Reg.readOnly_iff_offset (r : Reg) :
    r.readOnly = true ↔ r.offset.toNat = 0x00C ∨ (0x048 ≤ r.offset.toNat ∧ r.offset.toNat ≤ 0x1EC) := by
  cases r <;> simp [Reg.readOnly, Reg.offset] <;> omega

/-- A write to a read-only register is a bus error (R104). -/
theorem memWrite_of_readOnly {r : Reg} (h : r.readOnly = true) (v : Word) (s : State) :
    memWrite r.offset 4 v s = .fault (.busError (.write r.offset 4 v)) := by
  cases r with
  | padInfo | auxR | rk => exact memWrite_offset _ v s nofun
  | _ => cases h

/-- A write to every other register completes (R104, R156). -/
theorem memWrite_of_writable {r : Reg} (h : r.readOnly = false) (v : Word) (s : State) :
    ∃ t, memWrite r.offset 4 v s = .next t := by
  cases r with
  | cmd => exact perform_next v s
  | padInfo | auxR | rk => cases h
  | status | cfg | key | state | auxA | auxB => exact ⟨_, memWrite_of_writeReg nofun rfl⟩

/-- A write that reaches no register is a bus error (R105). -/
theorem memWrite_of_undecoded {a : Addr} {size : Nat} (h : decodeAccess a size = none) (v : Word) (s : State) :
    memWrite a size v s = .fault (.busError (.write a size v)) := by
  rw [memWrite, h]

/-- A write is accepted when it reaches a register that is not read-only (R104). -/
theorem accepted_write_iff {a : Addr} {size : Nat} {v : Word} :
    (BusAccess.write a size v).accepted = true ↔ ∃ r, decodeAccess a size = some r ∧ r.readOnly = false := by
  rw [BusAccess.accepted]
  cases decodeAccess a size with
  | none => simp
  | some r => cases r <;> simp [Reg.readOnly]

/-- A write is a bus error exactly when it is not accepted (R105). -/
theorem memWrite_eq_busError_iff {a : Addr} {size : Nat} {v : Word} {s : State} :
    memWrite a size v s = .fault (.busError (.write a size v)) ↔ (BusAccess.write a size v).accepted = false := by
  rw [← Bool.not_eq_true, accepted_write_iff]
  cases hd : decodeAccess a size with
  | none => simp [memWrite_of_undecoded hd]
  | some r =>
    obtain ⟨rfl, rfl⟩ := decodeAccess_eq_some hd
    cases hr : r.readOnly with
    | true => simp [memWrite_of_readOnly hr, hr]
    | false =>
      obtain ⟨t, ht⟩ := memWrite_of_writable hr v s
      simp [ht, hr]

/-- The addresses of the writes that are not accepted (R104, R105, R108). -/
theorem accepted_write_eq_false_iff {a : Addr} {size : Nat} {v : Word} :
    (BusAccess.write a size v).accepted = false ↔
      size ≠ 4 ∨ a.toNat % 4 ≠ 0 ∨ a.toNat = 0x00C ∨ (0x048 ≤ a.toNat ∧ a.toNat ≤ 0x1EC) ∨ 0x1F0 ≤ a.toNat := by
  rw [← Bool.not_eq_true, accepted_write_iff]
  cases hd : decodeAccess a size with
  | none =>
    have hundecoded := decodeAccess_eq_none.mp hd
    simp only [reduceCtorEq, false_and, exists_false, not_false_eq_true, true_iff]
    omega
  | some r =>
    have hdecoded := mt decodeAccess_eq_none.mpr (hd ▸ Option.some_ne_none r)
    obtain ⟨rfl, rfl⟩ := decodeAccess_eq_some hd
    simp only [Option.some.injEq, exists_eq_left', Bool.not_eq_false, r.readOnly_iff_offset]
    omega

/-- Settles O45: a read fails where nothing decodes, a write there and at the read-only registers. -/
theorem busErrorsExactly : Obligations.BusErrorsExactly := fun _ _ _ _ =>
  ⟨memRead_eq_none.trans decodeAccess_eq_none, memWrite_eq_busError_iff.trans accepted_write_eq_false_iff⟩

/-! ## A read after a write (R111, R113) -/

/-- A register that stores the word it is written: KEYj, STATEj, AUX_A or AUX_B (R104), at 0x010 to 0x044 (R108). -/
def Reg.storesWord : Reg → Bool
  | .key _ | .state _ | .auxA | .auxB => true
  | .cmd | .status | .cfg | .padInfo | .auxR | .rk _ => false

/-- Where the registers that store a word stand (R108). -/
theorem Reg.storesWord_iff_offset (r : Reg) :
    r.storesWord = true ↔ 0x010 ≤ r.offset.toNat ∧ r.offset.toNat ≤ 0x044 := by
  cases r <;> simp [Reg.storesWord, Reg.offset] <;> omega

/-- A register that stores a word reads as the word just written (R111). -/
theorem State.readReg_writeReg_same {s t : State} {v : Word} {r : Reg} (hr : r.storesWord = true)
    (h : s.writeReg v r = some t) : t.readReg r = v := by
  cases r with
  | key j | state j => cases h; exact Vector.getElem_set_self j.isLt
  | auxA | auxB => cases h; rfl
  | _ => cases hr

/-- A write of one register leaves what every other reads as (R60, R111). -/
theorem State.readReg_writeReg_other {s t : State} {v : Word} {q r : Reg} (hne : q ≠ r)
    (h : s.writeReg v r = some t) : t.readReg q = s.readReg q := by
  cases r with
  | cmd | padInfo | auxR | rk => cases h
  | status | cfg | auxA | auxB =>
    cases h
    cases q <;> simp_all [State.readReg, State.statusWord, State.cfgWord, State.padInfoWord]
  | key j =>
    cases h
    cases q with
    | key k => exact Vector.getElem_set_ne j.isLt k.isLt fun hv => hne (by rw [Fin.ext hv])
    | _ => rfl
  | state j =>
    cases h
    cases q with
    | state k => exact Vector.getElem_set_ne j.isLt k.isLt fun hv => hne (by rw [Fin.ext hv])
    | _ => rfl

/-- Settles O47: two offsets are equal only for one register, and a write changes one register only. -/
theorem readAfterWrite : Obligations.ReadAfterWrite := by
  rintro s t a v ⟨hlo, hhi, -⟩ h b
  rcases memWrite_cases h with ⟨rfl, -, -⟩ | ⟨r, -, rfl, -, hw⟩
  · exact absurd hlo (by decide)
  · cases hd : decodeAccess b 4 with
    | none =>
      have hne : b ≠ r.offset := by rintro rfl; simp [decodeAccess_offset] at hd
      rw [if_neg hne, memRead_eq_none.mpr hd, memRead_eq_none.mpr hd]
    | some q =>
      obtain ⟨-, rfl⟩ := decodeAccess_eq_some hd
      simp only [memRead_offset, Reg.offset_inj]
      split_ifs with hq
      · rw [hq, State.readReg_writeReg_same (r.storesWord_iff_offset.mpr ⟨hlo, hhi⟩) hw]
      · rw [State.readReg_writeReg_other hq hw]

/-! ## Steps and the host's events (R100, R105, R601) -/

/-- An accepted access completes (R102, R104). -/
theorem performAccess_of_accepted {a : BusAccess} (h : a.accepted = true) (s : State) :
    ∃ t, performAccess s a = .next t := by
  cases a with
  | read a size =>
    obtain ⟨r, hr⟩ := Option.isSome_iff_exists.mp h
    obtain ⟨rfl, rfl⟩ := decodeAccess_eq_some hr
    exact ⟨_, by rw [performAccess, memRead_offset]⟩
  | write a size v =>
    obtain ⟨r, hr, hw⟩ := accepted_write_iff.mp h
    obtain ⟨rfl, rfl⟩ := decodeAccess_eq_some hr
    exact memWrite_of_writable hw v (s.respond .done)

/-- An access that is not accepted is a bus error (R105). -/
theorem performAccess_of_not_accepted {a : BusAccess} (h : a.accepted = false) (s : State) :
    performAccess s a = .fault (.busError a) := by
  cases a with
  | read a size =>
    have hd : decodeAccess a size = none := by simpa [BusAccess.accepted] using h
    rw [performAccess, memRead_eq_none.mpr hd]
  | write a size v => exact memWrite_eq_busError_iff.mpr h

/-- Outside reset an access is performed (R100, R601). -/
theorem takeEvent_access {s : State} (hs : s.resetAsserted = false) (a : BusAccess) :
    takeEvent s (.access a) = performAccess s a := by
  rw [takeEvent, hs, if_neg Bool.false_ne_true]

/-- A read of a decoded register sets the response alone (R103). -/
theorem takeEvent_read {a : Addr} {size : Nat} {v : Word} {s : State} (hs : s.resetAsserted = false)
    (hv : memRead a size s = some v) : takeEvent s (.access (.read a size)) = .next (s.respond (.data v)) := by
  rw [takeEvent_access hs, performAccess, hv]

/-- Settles O48: the step is the read, which sets the response alone. -/
theorem readsHaveNoSideEffect : Obligations.ReadsHaveNoSideEffect := by
  intro s a size v es hp hs hv
  exact (step_of_pending hp).trans (takeEvent_read hs ((memRead_withPending a size s es).trans hv))

/-- A host that goes on after a bus error finds the access gone and its response an error (R105, log 2). -/
theorem stepPastBusError_of_fault {s : State} {a : BusAccess} (h : step s = .fault (.busError a)) :
    stepPastBusError s = .next s.afterBusError := by
  rw [stepPastBusError, ← step, h]

/-- Settles O46: the step is the access, which is not accepted. -/
theorem busErrorChangesNothing : Obligations.BusErrorChangesNothing := by
  intro s a es hp hs ha
  have hstep : step s = .fault (.busError a) :=
    calc step s = takeEvent (s.withPending es) (.access a) := step_of_pending hp
      _ = performAccess (s.withPending es) a := takeEvent_access (s := s.withPending es) hs a
      _ = .fault (.busError a) := performAccess_of_not_accepted ha _
  refine ⟨hstep, s.afterBusError, stepPastBusError_of_fault hstep, ?_, rfl, rfl, rfl⟩
  rw [State.afterBusError, hp]
  rfl

/-- An access completes exactly outside reset and when it is accepted (R105, R601). -/
theorem takeEvent_access_completes_iff {s : State} {a : BusAccess} :
    (∃ t, takeEvent s (.access a) = .next t) ↔ s.resetAsserted = false ∧ a.accepted = true := by
  cases hs : s.resetAsserted with
  | true => simp [takeEvent, hs]
  | false =>
    rw [takeEvent_access hs]
    cases ha : a.accepted with
    | true => simpa using performAccess_of_accepted ha s
    | false => simp [performAccess_of_not_accepted ha]

/-- Settles O54: an idle host and a change of the reset input always complete; an access when it may be made. -/
theorem stepCompletesForEveryAcceptedEvent : Obligations.StepCompletesForEveryAcceptedEvent := by
  intro s
  rw [State.hostWellBehaved]
  cases hp : s.pending with
  | nil => simp [step, stepHost, hp]
  | cons e es =>
    rw [step_of_pending hp]
    cases e with
    | access a => simp [takeEvent_access_completes_iff]
    | assertReset => simp [takeEvent]
    | releaseReset => simp [takeEvent]

/-! ## Host programs as runs (R110, R160) -/

/-- A command word does not depend on the host's list (log 1). -/
theorem perform_withPending {c : Word} {s t : State} (es : List HostEvent) (h : perform c s = .next t) :
    perform c (s.withPending es) = .next (t.withPending es) := by
  cases hd : decode c with
  | error e =>
    rw [perform, hd] at h ⊢
    cases h
    rfl
  | ok i =>
    rw [perform_of_decode hd] at h ⊢
    exact exec_withPending es h

/-- A write of a register does not depend on the host's list (log 1). -/
theorem State.writeReg_withPending {s t : State} {v : Word} {r : Reg} (es : List HostEvent)
    (h : s.writeReg v r = some t) : (s.withPending es).writeReg v r = some (t.withPending es) := by
  cases r with
  | cmd | padInfo | auxR | rk => cases h
  | status | cfg | key | state | auxA | auxB => cases h; rfl

/-- An event is taken alike whatever events follow it (R110, log 1). -/
theorem takeEvent_withPending {e : HostEvent} {s t : State} (es : List HostEvent) (h : takeEvent s e = .next t) :
    takeEvent (s.withPending es) e = .next (t.withPending es) := by
  rcases takeEvent_cases h with ⟨a, size, v, rfl, hs, hv, rfl⟩ | ⟨c, rfl, hs, hc⟩ | ⟨r, v, hr, rfl, hs, hw⟩ | ⟨rfl, rfl⟩ |
    ⟨rfl, rfl⟩
  · exact takeEvent_read hs ((memRead_withPending a size s es).trans hv)
  · exact (takeEvent_wr_cmd (s := s.withPending es) hs).trans (perform_withPending es hc)
  · exact takeEvent_wr hs hr (State.writeReg_withPending es hw)
  · rfl
  · rw [takeEvent, State.withPending_resetAsserted]
    cases s.resetAsserted <;> rfl

/-- Taking an event leaves the events that follow it (log 1). -/
theorem takeEvent_pending {e : HostEvent} {s t : State} (h : takeEvent s e = .next t) : t.pending = s.pending := by
  have h' : takeEvent s e = .next (t.withPending s.pending) := takeEvent_withPending s.pending h
  have ht : t = t.withPending s.pending := Host.Outcome.next.inj (h.symm.trans h')
  exact congrArg (·.pending) ht

/-- A run of one step and more (R100). -/
theorem run_succ_of_step {s t : State} (h : step s = .next t) (k : Nat) :
    Host.Core.run Sys2Proof.core (k + 1) s = Host.Core.run Sys2Proof.core k t := by
  have hcore : Sys2Proof.core.step s = .next t := h
  simp only [Host.Core.run, hcore]

/-- Settles O57, by induction on the program: each event is the machine's next step, which leaves the rest of the list. -/
theorem hostProgramIsARunOfSteps : Obligations.HostProgramIsARunOfSteps := by
  intro es rest
  induction es with
  | nil => intro s t reads h; cases h; rfl
  | cons e es ih =>
    intro s t reads h
    obtain ⟨u, ws, hu, hrun, -⟩ := runHost_cons_cases h
    have hrest : u.withPending rest = u := congrArg u.withPending (takeEvent_pending hu).symm
    have hstep : step (s.withPending (e :: es ++ rest)) = .next (u.withPending (es ++ rest)) :=
      calc step (s.withPending (e :: es ++ rest)) = takeEvent (s.withPending (es ++ rest)) e := step_of_pending rfl
        _ = .next (u.withPending (es ++ rest)) := takeEvent_withPending (s := s.withPending rest) (es ++ rest) hu
    rw [← hrest] at hrun
    exact (run_succ_of_step hstep es.length).trans (ih _ _ _ hrun)

end Sys2Proof.Machine
end

section
/-! PROOFS. The command word (30_encoding.md R150 to R158): its decoder and its encoder undo each other, and the words of R155 are
those that spell no command. -/

namespace Sys2Proof

/-- A legal command is spelled by its row of R153's table, which admits its operand. -/
theorem Instr.exists_opcodeTable_row {i : Instr} (h : i.wellFormed = true) :
    ∃ row ∈ opcodeTable, row.opc = i.opcode ∧ row.argMin ≤ i.arg.toNat ∧ i.arg.toNat ≤ row.argMax ∧
      row.command i.arg = i := by
  cases i with
  | expand a | encrypt a => simpa [opcodeTable, Instr.opcode, Instr.arg] using Nat.le_of_lt_succ a.isLt
  | addrk | round | pad | unpad => simpa [opcodeTable, Instr.opcode, Instr.arg, Instr.wellFormed] using h
  | _ => simp [opcodeTable, Instr.opcode, Instr.arg]

/-- The lookup of a row's opcode finds the row, as no other row has it (R153). -/
theorem opcodeTable_find? {row : OpcodeRow} (h : row ∈ opcodeTable) :
    opcodeTable.find? (fun r => r.opc == row.opc) = some row := by
  obtain ⟨before, after, hsplit⟩ := List.append_of_mem h
  have hdistinct := hsplit ▸ opcodeTable_opcodes_distinct
  rw [List.find?_eq_some_iff_append]
  refine ⟨beq_self_eq_true _, before, after, hsplit, fun r hr => ?_⟩
  simpa using (List.pairwise_append.mp hdistinct).2.2 r hr row (List.mem_cons_self ..)

/-- The decoder answers the command of the word's row, if no reserved bit is set and the row admits ARG (R152). -/
theorem decode_of_row {c : Word} {row : OpcodeRow} (hrow : row ∈ opcodeTable) (hopc : row.opc = opcField c)
    (hrsv : rsvField c = 0) (harg : row.argMin ≤ (argField c).toNat ∧ (argField c).toNat ≤ row.argMax) :
    decode c = .ok (row.command (argField c)) := by
  rw [decode, if_neg (not_not.mpr hrsv), ← hopc, opcodeTable_find? hrow]
  exact if_pos harg

/-- Settles O1: the fields of the command's word are those of its row. -/
theorem decodeOfEncode : Obligations.DecodeOfEncode := by
  intro i hwf
  obtain ⟨row, hrow, hopc, hmin, hmax, hcmd⟩ := Instr.exists_opcodeTable_row hwf
  obtain ⟨ho, ha, hr⟩ : Laws.Fields.Statement i := Laws.Fields.fields_encodeFields i.opcode i.arg
  rw [decode_of_row hrow (hopc.trans ho.symm) hr (by rw [ha]; exact ⟨hmin, hmax⟩), ha, hcmd]

/-- Settles O2, by the inversion of the decoder. -/
theorem encodeOfDecode : Obligations.EncodeOfDecode := by
  intro c i h
  obtain ⟨hwf, rfl⟩ := decode_sound h
  exact ⟨hwf, rfl⟩

/-- Settles O3: each word is the encoding of its command. -/
theorem wordsDecodeAsTabulated : Obligations.WordsDecodeAsTabulated :=
  ⟨decodeOfEncode .nop rfl, decodeOfEncode (.expand 32) rfl, decodeOfEncode (.encrypt 16) rfl,
    decodeOfEncode (.addrk 14) rfl, decodeOfEncode (.round 13) rfl, decodeOfEncode .finalround rfl,
    decodeOfEncode .gfmul rfl, decodeOfEncode (.pad 5) rfl, decodeOfEncode (.unpad 16) rfl⟩

end Sys2Proof

namespace Sys2Proof.Machine

/-- An opcode without a row lies in one of the ranges R155 names. -/
theorem opcode_unassigned_or_row (opc : Byte) :
    (0x03 ≤ opc.toNat ∧ opc.toNat ≤ 0x0F) ∨ (0x17 ≤ opc.toNat ∧ opc.toNat ≤ 0x1F) ∨
      (0x25 ≤ opc.toNat ∧ opc.toNat ≤ 0x2F) ∨ 0x32 ≤ opc.toNat ∨ ∃ row ∈ opcodeTable, row.opc = opc := by
  revert opc
  decide

/-- Among the words of a row, R155 refuses those with an ARG the row does not admit. -/
theorem illegalWord_iff_of_row {c : Word} {row : OpcodeRow} (hrow : row ∈ opcodeTable) (hopc : row.opc = opcField c)
    (hrsv : rsvField c = 0) :
    IllegalWord c ↔ ¬ (row.argMin ≤ (argField c).toNat ∧ (argField c).toNat ≤ row.argMax) := by
  have harg := (argField c).isLt
  simp only [opcodeTable, List.mem_cons, List.not_mem_nil, or_false] at hrow
  rcases hrow with rfl | rfl | rfl | rfl | rfl | rfl | rfl | rfl | rfl | rfl | rfl | rfl | rfl | rfl | rfl | rfl | rfl
  all_goals
    simp only [IllegalWord, ← hopc, hrsv, ne_eq, not_true, false_or, true_or, or_true, true_and, BitVec.reduceToNat]
    omega

/-- A word outside R155's list decodes (R156). -/
theorem decode_of_not_illegalWord {c : Word} (h : ¬ IllegalWord c) : ∃ i, decode c = .ok i := by
  have hrsv : rsvField c = 0 := by_contra fun hr => h (.inl hr)
  rcases opcode_unassigned_or_row (opcField c) with h1 | h2 | h3 | h4 | ⟨row, hrow, hopc⟩
  · exact absurd (.inr (.inl h1)) h
  · exact absurd (.inr (.inr (.inl h2))) h
  · exact absurd (.inr (.inr (.inr (.inl h3)))) h
  · exact absurd (.inr (.inr (.inr (.inr (.inl h4))))) h
  · exact ⟨_, decode_of_row hrow hopc hrsv (not_not.mp (mt (illegalWord_iff_of_row hrow hopc hrsv).mpr h))⟩

/-- No word of R155's list decodes (R152). -/
theorem not_illegalWord_of_decode {c : Word} {i : Instr} (h : decode c = .ok i) : ¬ IllegalWord c := by
  obtain ⟨hrsv, row, hrow, hopc, hmin, hmax, -⟩ := decode_cases h
  exact fun hc => (illegalWord_iff_of_row hrow hopc hrsv).mp hc ⟨hmin, hmax⟩

/-- Settles O4: the word does not decode, so performing it takes the exception. -/
theorem illegalWordsComplete : Obligations.IllegalWordsComplete := by
  intro c s hc
  cases hd : decode c with
  | ok i => exact absurd hc (not_illegalWord_of_decode hd)
  | error e =>
    rw [perform, hd]
    exact s.raiseErr_illegalCommand

/-- Settles O5: the word decodes, it is the encoding of what it decodes to, and it is performed as that. -/
theorem legalWordsPerformTheirCommand : Obligations.LegalWordsPerformTheirCommand := by
  intro c hc
  obtain ⟨i, hd⟩ := decode_of_not_illegalWord hc
  obtain ⟨hwf, henc⟩ := encodeOfDecode c i hd
  exact ⟨i, hwf, henc, perform_of_decode hd⟩

end Sys2Proof.Machine
end

section
/-! PROOFS. The field and the S-box (40_gf_sbox.md): the laws of GFMul from its additivity, the S-box table as the inverse and the
affine map, and the scalar commands GFMUL, SBOX and MIXCOL. -/

namespace Sys2Proof.Machine

/-! ## GFMul is determined by the powers of x (R200) -/

/-- A product of bytes that is additive in each factor. -/
structure BiAdditive (f : Byte → Byte → Byte) : Prop where
  left : ∀ a a' b, f (a ^^^ a') b = f a b ^^^ f a' b
  right : ∀ a b b', f a (b ^^^ b') = f a b ^^^ f a b'

/-- A product additive in each factor is determined by its values on the powers of x. -/
theorem BiAdditive.ext {f g : Byte → Byte → Byte} (hf : BiAdditive f) (hg : BiAdditive g)
    (h : ∀ i < 8, ∀ j < 8, f (1#8 <<< i) (1#8 <<< j) = g (1#8 <<< i) (1#8 <<< j)) (a b : Byte) : f a b = g a b :=
  additive_ext (f := (f · b)) (g := (g · b)) (hf.left · · b) (hg.left · · b)
    (fun i hi => additive_ext (hf.right _) (hg.right _) (h i hi) b) a

theorem BiAdditive.swap {f : Byte → Byte → Byte} (hf : BiAdditive f) : BiAdditive fun a b => f b a :=
  ⟨fun _ _ _ => hf.right _ _ _, fun _ _ _ => hf.left _ _ _⟩

/-- An additive map after the product. -/
theorem BiAdditive.map {f : Byte → Byte → Byte} {φ : Byte → Byte} (hf : BiAdditive f)
    (hφ : ∀ a b, φ (a ^^^ b) = φ a ^^^ φ b) : BiAdditive fun a b => φ (f a b) :=
  ⟨fun a a' b => by rw [hf.left, hφ], fun a b b' => by rw [hf.right, hφ]⟩

/-- An additive map on the second factor. -/
theorem BiAdditive.mapRight {f : Byte → Byte → Byte} {φ : Byte → Byte} (hf : BiAdditive f)
    (hφ : ∀ a b, φ (a ^^^ b) = φ a ^^^ φ b) : BiAdditive fun a b => f a (φ b) :=
  ⟨fun a a' b => hf.left a a' (φ b), fun a b b' => by rw [hφ, hf.right]⟩

theorem gfMul_biAdditive : BiAdditive gfMul := ⟨gfLoop_xor_left 8, gfLoop_xor_right 8⟩

/-! ## The polynomial product (R200) -/

/-- Adding a term under a condition is additive in the condition and in what it is added to. -/
theorem ite_xor_of_condition_xor {n : Nat} (x y : Bool) (p q t : BitVec n) :
    (if x then p ^^^ t else p) ^^^ (if y then q ^^^ t else q) = if x ^^ y then p ^^^ q ^^^ t else p ^^^ q := by
  have hcancel : p ^^^ t ^^^ (q ^^^ t) = p ^^^ q ^^^ (t ^^^ t) := by ac_rfl
  cases x <;> cases y
  · rfl
  · exact (BitVec.xor_assoc p q t).symm
  · change p ^^^ t ^^^ q = p ^^^ q ^^^ t
    ac_rfl
  · simpa using hcancel

/-- A turn of the carry-less product: the term of degree i of b. -/
def clStep (a b : Byte) (acc : BitVec 16) (i : Nat) : BitVec 16 :=
  if b.getLsbD i then acc ^^^ (a.setWidth 16 <<< i) else acc

theorem clProduct_eq_foldl (a b : Byte) : clProduct a b = (List.range 8).foldl (clStep a b) 0#16 := rfl

/-- Where two products add up turn by turn, they add up. -/
theorem clProduct_eq_xor {a b a' b' c d : Byte}
    (h : ∀ p q i, clStep a b p i ^^^ clStep a' b' q i = clStep c d (p ^^^ q) i) :
    clProduct c d = clProduct a b ^^^ clProduct a' b' := by
  simpa only [clProduct_eq_foldl, BitVec.zero_xor] using List.foldl_hom₂ (List.range 8) (· ^^^ ·) _ _ _ 0#16 0#16 h

/-- The carry-less product is additive in its first factor. -/
theorem clProduct_xor_left (a a' b : Byte) : clProduct (a ^^^ a') b = clProduct a b ^^^ clProduct a' b :=
  clProduct_eq_xor fun p q i => by
    simp only [clStep, BitVec.setWidth_xor, BitVec.shiftLeft_xor_distrib]
    split
    · ac_rfl
    · rfl

/-- The carry-less product is additive in its second factor. -/
theorem clProduct_xor_right (a b b' : Byte) : clProduct a (b ^^^ b') = clProduct a b ^^^ clProduct a b' :=
  clProduct_eq_xor fun p q i => by
    simp only [clStep, BitVec.getLsbD_xor]
    exact ite_xor_of_condition_xor _ _ p q _

/-- Reduction by the field polynomial is additive. -/
theorem polyMod_xor (p q : BitVec 16) : polyMod (p ^^^ q) = polyMod p ^^^ polyMod q := by
  rw [polyMod, polyMod, polyMod, ← BitVec.setWidth_xor]
  congr 1
  refine List.foldl_hom₂ _ (· ^^^ ·) _ _ _ p q fun p q i => ?_
  rw [BitVec.getLsbD_xor]
  exact ite_xor_of_condition_xor _ _ p q _

theorem polyProduct_biAdditive : BiAdditive fun a b => polyMod (clProduct a b) :=
  ⟨fun a a' b => by rw [clProduct_xor_left, polyMod_xor], fun a b b' => by rw [clProduct_xor_right, polyMod_xor]⟩

/-- Settles O24: both products are additive in each factor, and they agree on the powers of x. -/
theorem gfMulIsPolynomialProduct : Obligations.GfMulIsPolynomialProduct :=
  gfMul_biAdditive.ext polyProduct_biAdditive (by decide +kernel)

/-! ## The laws of GFMul (R201) -/

theorem gfMul_comm (a b : Byte) : gfMul a b = gfMul b a :=
  gfMul_biAdditive.ext gfMul_biAdditive.swap (by decide +kernel) a b

/-- Multiplication by x of the second factor multiplies the product by x (R202). -/
theorem gfMul_xtime_right (a b : Byte) : gfMul a (xtime b) = xtime (gfMul a b) :=
  (gfMul_biAdditive.mapRight xtime_xor).ext (gfMul_biAdditive.map xtime_xor) (by decide +kernel) a b

@[simp] theorem gfMul_zero (a : Byte) : gfMul a 0 = 0 := by simpa using gfMul_biAdditive.right a 0 0

@[simp] theorem gfMul_one (a : Byte) : gfMul a 1 = a := by simp [gfMul, gfLoop]

/-- A power of x below 8 as a second factor is as many multiplications by x (R202). -/
theorem gfMul_one_shiftLeft (a : Byte) {i : Nat} (hi : i < 8) : gfMul a (1#8 <<< i) = xtime^[i] a := by
  have hx : ∀ i < 7, 1#8 <<< (i + 1) = xtime (1#8 <<< i) := by decide
  induction i with
  | zero => exact gfMul_one a
  | succ i ih => rw [hx i (by omega), gfMul_xtime_right, ih (by omega), Function.iterate_succ_apply']

/-- GFMul is associative, as it is for a power of x in the third factor. -/
theorem gfMul_assoc (a b c : Byte) : gfMul (gfMul a b) c = gfMul a (gfMul b c) := by
  refine additive_ext (f := gfMul (gfMul a b)) (g := fun c => gfMul a (gfMul b c)) (gfMul_biAdditive.right _)
    (fun c c' => by rw [gfMul_biAdditive.right, gfMul_biAdditive.right]) (fun i hi => ?_) c
  have hcomm : Function.Semiconj (gfMul a) xtime^[i] xtime^[i] := .iterate_right (gfMul_xtime_right a) i
  rw [gfMul_one_shiftLeft _ hi, gfMul_one_shiftLeft _ hi, hcomm]

/-- The affine map of R222 undone. -/
def affineUndo (y : Byte) : Byte := y.rotateLeft 1 ^^^ y.rotateLeft 3 ^^^ y.rotateLeft 6 ^^^ 0x05

/-- `affineUndo` is a right inverse of the affine map. -/
theorem affineMap_affineUndo : ∀ y : Byte, affineMap (affineUndo y) = y := by
  decide +kernel

/-- The inverse of a nonzero byte, read off the S-box table (R222); that it is one, GFMul says (`gfMul_gfInv`). -/
def gfInv (a : Byte) : Byte := affineUndo (sboxTable a)

theorem affineMap_gfInv (a : Byte) : affineMap (gfInv a) = sboxTable a := affineMap_affineUndo (sboxTable a)

/-- A nonzero byte times its inverse is 1 (R201). -/
theorem gfMul_gfInv : ∀ a : Byte, a ≠ 0 → gfMul a (gfInv a) = 1 := by
  decide +kernel

/-- An inverse is the inverse: it is b = b · (a · a⁻¹) = a⁻¹. -/
theorem eq_gfInv_of_gfMul_eq_one {a b : Byte} (h : gfMul a b = 1) : b = gfInv a := by
  have ha : a ≠ 0 := by
    rintro rfl
    rw [gfMul_comm, gfMul_zero] at h
    exact absurd h (by decide)
  calc b = gfMul b (gfMul a (gfInv a)) := by rw [gfMul_gfInv a ha, gfMul_one]
    _ = gfMul (gfMul a b) (gfInv a) := by rw [← gfMul_assoc, gfMul_comm b a]
    _ = gfInv a := by rw [h, gfMul_comm, gfMul_one]

/-- Settles O25: the inverse of a nonzero byte is `gfInv`. -/
theorem gfMulLaws : Obligations.GfMulLaws :=
  ⟨gfMul_comm, gfMul_assoc, gfMul_biAdditive.right, fun a => ⟨gfMul_zero a, gfMul_one a⟩,
    fun a ha => ⟨gfInv a, gfMul_gfInv a ha, fun _ hb => eq_gfInv_of_gfMul_eq_one hb⟩⟩

/-- Settles O26: an inverse of x is `gfInv x`, which the affine map takes to the entry of x. -/
theorem sboxIsInverseThenAffine : Obligations.SboxIsInverseThenAffine := by
  refine ⟨by decide, fun x b h => ?_⟩
  rw [eq_gfInv_of_gfMul_eq_one h, affineMap_gfInv]

/-! ## GFMUL, SBOX and MIXCOL (R210 to R212) -/

/-- A word with the opcode of a command without operand, other than the command's own word, is illegal (R155). -/
theorem perform_illegal_of_noOperand {i : Instr} (hrow : ⟨i.opcode, 0, 0, fun _ => i⟩ ∈ opcodeTable) {c : Word}
    (hopc : opcField c = i.opcode) (hne : c ≠ encode i) (s : State) : perform c s = .next (afterIllegal s) := by
  refine illegalWordsComplete c s ?_
  by_cases hrsv : rsvField c = 0
  · obtain ⟨-, hi, -⟩ := opcodeTable_row_command _ hrow 0 le_rfl le_rfl
    obtain ⟨ho, ha, hr⟩ : Laws.Fields.Statement i := Laws.Fields.fields_encodeFields _ _
    have harg : argField c ≠ 0 := fun h =>
      hne (word_eq_of_fields (hopc.trans ho.symm) (h.trans (ha.trans hi).symm) (hrsv.trans hr.symm))
    rw [illegalWord_iff_of_row hrow hopc.symm hrsv]
    bv_omega
  · exact .inl hrsv

/-- A command that finishes with a scalar result changes AUX_R and LASTCODE only (R505). -/
theorem exec_perform_of_setAuxR {i : Instr} {c : Word} {s : State} {v : Word} (hd : decode c = .ok i)
    (h : exec i s = (s.setAuxR v).finishOk) :
    ∃ t, exec i s = .next t ∧ perform c s = .next t ∧ OnlyAuxR s t ∧ t.lastCode = 0 ∧ t.auxR = v := by
  rw [State.finishOk_eq] at h
  exact ⟨_, h, (perform_of_decode hd s).trans h, rfl, rfl, rfl⟩

/-- Settles O17: the product is the command's scalar result. -/
theorem gfmulCommand : Obligations.GfmulCommand := fun s =>
  ⟨exec_perform_of_setAuxR (decodeOfEncode .gfmul rfl) rfl, fun _ hopc hne =>
    perform_illegal_of_noOperand (i := .gfmul) (by simp [opcodeTable, Instr.opcode]) hopc hne s⟩

/-- Settles O18: the entry is the command's scalar result. -/
theorem sboxCommand : Obligations.SboxCommand := fun s =>
  ⟨exec_perform_of_setAuxR (decodeOfEncode .sbox rfl) rfl, fun _ hopc hne =>
    perform_illegal_of_noOperand (i := .sbox) (by simp [opcodeTable, Instr.opcode]) hopc hne s⟩

/-- The column of a packed word is its four bytes (R9, R206). -/
@[simp] theorem columnOfWord_wordOf (b0 b1 b2 b3 : Byte) : columnOfWord (wordOf b0 b1 b2 b3) = #v[b0, b1, b2, b3] := by
  apply Vector.ext
  intro k hk
  interval_cases k <;> simp [columnOfWord]

/-- Settles O21: the scalar result is the packed combination of the operand's bytes. -/
theorem mixcolCommand : Obligations.MixcolCommand := by
  intro s b0 b1 b2 b3 haux
  have hexec : exec .mixcol s = (s.setAuxR (wordOfColumn (mixColumn #v[b0, b1, b2, b3]))).finishOk := by
    rw [← columnOfWord_wordOf, wordOf, ← haux]
    rfl
  exact ⟨exec_perform_of_setAuxR (decodeOfEncode .mixcol rfl) hexec, fun _ hopc hne =>
    perform_illegal_of_noOperand (i := .mixcol) (by simp [opcodeTable, Instr.opcode]) hopc hne s⟩

end Sys2Proof.Machine
end

section
/-! PROOFS. The key schedule (41_key_schedule.md): RotWord and SubWord on the bits and the bytes of a word, the recurrence of
KeyExpansion from its loop, and the commands EXPAND, SUBWORD and ROTWORD. -/

namespace Sys2Proof.Machine

/-! ## RotWord and SubWord (R251, R252) -/

/-- RotWord takes byte k from byte k + 1, byte 3 from byte 0 (R251). -/
theorem wordByte_rotWord (w : Word) (k : Fin 4) : wordByte (rotWord w) k = wordByte w (k + 1) := by
  rw [rotWord]
  fin_cases k <;> simp

/-- So does the rotate left by 8 bits: byte 0 is the most significant (R9). -/
theorem wordByte_rotateLeft_eight (w : Word) (k : Fin 4) : wordByte (w.rotateLeft 8) k = wordByte w (k + 1) := by
  apply BitVec.eq_of_getLsbD_eq
  intro i hi
  rw [getLsbD_wordByte _ _ _ hi, getLsbD_wordByte _ _ _ hi, BitVec.getLsbD_rotateLeft]
  cases k using Fin.lastCases with
  | last => simp [hi]
  | cast k =>
    have hk : 8 * (3 - k.val) + i - 8 = 8 * (3 - (k.val + 1)) + i := by omega
    simp [Fin.coeSucc_eq_succ, hk, show ¬ 8 * (3 - k.val) + i < 8 by omega, show 8 * (3 - k.val) + i < 32 by omega]

/-- RotWord is the 32-bit rotate left by 8 (R251). -/
theorem rotWord_eq_rotateLeft (w : Word) : rotWord w = w.rotateLeft 8 :=
  word_ext fun k => by rw [wordByte_rotWord, wordByte_rotateLeft_eight]

/-- SubWord substitutes the bytes of a word one by one (R252). -/
theorem wordByte_subWord (w : Word) (k : Fin 4) : wordByte (subWord w) k = sboxTable (wordByte w k) := by
  rw [subWord]
  fin_cases k <;> simp

/-! ## The recurrence of KeyExpansion (R253) -/

section ExpandLoop

variable (w : Vector Word 60) {n : Nat}

/-- Turn n sets word n + 8 (R253). -/
theorem getElem_expandLoop_succ_self (h : n + 1 ≤ 52) :
    (expandLoop w (n + 1) h)[n + 8] =
      (expandLoop w n (by omega))[n] ^^^ scheduleTemp (n + 8) (expandLoop w n (by omega))[n + 7] :=
  Vector.getElem_set_self _

/-- Turn n keeps every other word (R253). -/
theorem getElem_expandLoop_succ_of_ne (h : n + 1 ≤ 52) {i : Nat} (hi : i < 60) (hne : i ≠ n + 8) :
    (expandLoop w (n + 1) h)[i] = (expandLoop w n (by omega))[i] :=
  Vector.getElem_set_ne (by omega) hi hne.symm

/-- The turns after the first n keep the words below n + 8, those already set (R253). -/
theorem getElem_expandLoop_of_le {m : Nat} (hnm : n ≤ m) (hm : m ≤ 52) {i : Nat} (hi : i < n + 8) :
    (expandLoop w m hm)[i] = (expandLoop w n (hnm.trans hm))[i] := by
  induction m, hnm using Nat.le_induction with
  | base => rfl
  | succ m hnm ih => rw [getElem_expandLoop_succ_of_ne w hm (by omega) (by omega), ih (by omega)]

/-- The words set by the first m turns obey the loop's assignment (R253). -/
theorem getElem_expandLoop_add_eight {m : Nat} (hnm : n < m) (hm : m ≤ 52) :
    (expandLoop w m hm)[n + 8] = (expandLoop w m hm)[n] ^^^ scheduleTemp (n + 8) (expandLoop w m hm)[n + 7] := by
  rw [getElem_expandLoop_of_le w hnm hm (Nat.lt_succ_self (n + 8)), getElem_expandLoop_succ_self,
    getElem_expandLoop_of_le w hnm.le hm (show n < n + 8 by omega),
    getElem_expandLoop_of_le w hnm.le hm (show n + 7 < n + 8 by omega)]

end ExpandLoop

/-- The first 8 words of the schedule are the key (R253). -/
theorem getElem_keyExpansion_of_lt (key : Vector Word 8) {i : Nat} (hi : i < 8) : (keyExpansion key)[i] = key[i] := by
  rw [keyExpansion, getElem_expandLoop_of_le _ (Nat.zero_le 52) le_rfl hi]
  simp [expandLoop, hi]

/-- The schedule obeys the loop's assignment: word n + 8 is made from words n and n + 7 (R253). -/
theorem getElem_keyExpansion_add_eight (key : Vector Word 8) {n : Nat} (hn : n < 52) :
    (keyExpansion key)[n + 8] = (keyExpansion key)[n] ^^^ scheduleTemp (n + 8) (keyExpansion key)[n + 7] :=
  getElem_expandLoop_add_eight _ hn le_rfl

/-- Settles O8: the first 8 words are the key's, and `scheduleTemp` is the recurrence's second term. -/
theorem keyExpansionRecurrence : Obligations.KeyExpansionRecurrence := by
  rintro key ⟨i, hi⟩
  refine ⟨fun h => getElem_keyExpansion_of_lt key h, fun h => ?_⟩
  obtain ⟨n, rfl⟩ := Nat.exists_eq_add_of_le' h
  exact getElem_keyExpansion_add_eight key (by omega)

/-! ## The commands (R262, R270, R271) -/

/-- A word written as a rule writes it, `opc | arg << 8`, is R158's encoding. -/
theorem wordWithArg_eq_encodeFields (opc arg : Byte) : wordWithArg (opc.setWidth 32) arg = encodeFields opc arg :=
  BitVec.or_comm _ _

/-- A legal command's word is performed as the command (R152, R158). -/
theorem perform_encode {i : Instr} (h : i.wellFormed = true) (s : State) : perform (encode i) s = exec i s :=
  perform_of_decode (decodeOfEncode i h) s

/-- EXPAND 32 changes W, KV and LASTCODE only (R262). -/
theorem exec_expand_eq {len : Byte} (h : len.toNat = 32) (s : State) :
    exec (.expand len) s = .next { s with w := keyExpansion s.key, kv := true, lastCode := 0 } := by
  rw [exec_expand h, ← State.finishOk, State.finishOk_eq, State.loadSchedule]

/-- EXPAND of another length changes KV, LASTCODE and ERR only (R262, R504). -/
theorem exec_expand_wrongLength_eq {len : Byte} (h : len.toNat ≠ 32) (s : State) :
    exec (.expand len) s = .next { s with kv := false, lastCode := 2, err := true } := by
  rw [exec_expand_wrongLength h, ← State.raiseErr, State.raiseErr_invalidKeyLength, State.dropEngine]

/-- Settles O7: by the two outcomes of EXPAND; a word with reserved bits set is one of R155's. -/
theorem expandCommand : Obligations.ExpandCommand := by
  intro s
  have hload := exec_expand_eq (len := 32) rfl s
  refine ⟨hload, (perform_encode (i := .expand 32) rfl s).trans hload, fun len hlen => ?_,
    fun c _ hrsv => illegalWordsComplete c s (.inl hrsv)⟩
  have hdrop := exec_expand_wrongLength_eq hlen s
  have hword : wordWithArg 0x00000001 len = encode (.expand len) := wordWithArg_eq_encodeFields 0x01 len
  exact ⟨hdrop, by rw [hword, perform_encode rfl, hdrop]⟩

/-- Settles O19: the substituted word is the command's scalar result. -/
theorem subwordCommand : Obligations.SubwordCommand := by
  intro s
  obtain ⟨t, hexec, hperform, hframe, hcode, haux⟩ := exec_perform_of_setAuxR (s := s) (decodeOfEncode .subword rfl) rfl
  exact ⟨⟨t, hexec, hperform, hframe, hcode, fun k => by rw [haux, wordByte_subWord]⟩, fun _ hopc hne =>
    perform_illegal_of_noOperand (i := .subword) (by simp [opcodeTable, Instr.opcode]) hopc hne s⟩

/-- Settles O20: the rotated word is the command's scalar result. -/
theorem rotwordCommand : Obligations.RotwordCommand := by
  intro s
  rw [← rotWord_eq_rotateLeft]
  exact ⟨exec_perform_of_setAuxR (decodeOfEncode .rotword rfl) rfl, fun _ hopc hne =>
    perform_illegal_of_noOperand (i := .rotword) (by simp [opcodeTable, Instr.opcode]) hopc hne s⟩

end Sys2Proof.Machine
end

section
/-! PROOFS. The block transforms (42_block_transform.md): the transforms of a block byte by byte and column by column, sequences of
commands on STATE as the transform they make together, and the commands ENCRYPT, ADDRK to TRANSPOSE. -/

namespace Sys2Proof.Machine

/-! ## The transforms of a block (R301, R315, R322, R330, R335) -/

section BlockTransforms

variable (b : Block)

/-- SubBytes substitutes the bytes one by one (R315). -/
theorem getElem_subBytes (k : Fin 16) : (subBytes b)[k] = sboxTable b[k] := by
  simp [subBytes]

/-- Where ShiftRows takes byte k from (R322). -/
theorem getElem_shiftRows (k : Fin 16) : (shiftRows b)[k] = b[k.val % 4 + 4 * ((k.val / 4 + k.val % 4) % 4)] :=
  getElem_ofMatrix _ k.val k.isLt

/-- Where Transpose takes byte k from (R301). -/
theorem getElem_transposeBlock (k : Fin 16) : (transposeBlock b)[k] = b[4 * (k.val % 4) + k.val / 4] := by
  simp only [Nat.add_comm (4 * (k.val % 4))]
  exact getElem_ofMatrix _ k.val k.isLt

/-- The bytes of column c (R330). -/
theorem columnOf_eq (c : Fin 4) :
    columnOf b c = #v[b[4 * c.val], b[4 * c.val + 1], b[4 * c.val + 2], b[4 * c.val + 3]] := by
  apply Vector.ext
  intro r hr
  interval_cases r <;> simp [columnOf, cell, Nat.add_comm]

/-- MixColumns combines the columns one by one (R330). -/
theorem columnOf_mixColumns (c : Fin 4) : columnOf (mixColumns b) c = mixColumn (columnOf b c) := by
  apply Vector.ext
  intro r hr
  rw [columnOf, Vector.getElem_ofFn, mixColumns, cell_ofMatrix]
  rfl

/-- Transpose exchanges the indices of the matrix (R301). -/
theorem cell_transposeBlock (r c : Fin 4) : cell (transposeBlock b) r c = cell b c r := cell_ofMatrix _ r c

/-- ShiftRows rotates row r by r columns (R322). -/
theorem cell_shiftRows (r c : Fin 4) : cell (shiftRows b) r c = cell b r (c + r) := cell_ofMatrix _ r c

/-- Exchanging the indices twice restores the matrix (R301). -/
theorem transposeBlock_transposeBlock : transposeBlock (transposeBlock b) = b :=
  block_ext fun r c => by rw [cell_transposeBlock, cell_transposeBlock]

/-- Four ShiftRows rotate row r by 4r columns, a whole number of turns (R322). -/
theorem shiftRows_four : shiftRows (shiftRows (shiftRows (shiftRows b))) = b :=
  block_ext fun r c => by
    have hturn : c + r + r + r + r = c := by omega
    simp only [cell_shiftRows, hturn]

/-- A round key added twice cancels (R335). -/
theorem addRoundKey_addRoundKey (w : Vector Word 60) (r : Fin 15) : addRoundKey w r (addRoundKey w r b) = b :=
  block_ext fun i j => by rw [cell_addRoundKey, cell_addRoundKey, BitVec.xor_assoc, BitVec.xor_self, BitVec.xor_zero]

end BlockTransforms

/-! ## Sequences of commands on STATE (R338, R339) -/

/-- In every state with this KV and this W, the commands put `f` of the block into STATE and complete. -/
def Transforms (kv : Bool) (w : Vector Word 60) (is : List Instr) (f : Block → Block) : Prop :=
  ∀ s : State, s.kv = kv → s.w = w → runCommands is s = .next (s.afterBlock (f s.block))

namespace Transforms

variable {kv : Bool} {w : Vector Word 60} {is js : List Instr} {f g : Block → Block}

/-- One command. -/
theorem single {i : Instr}
    (h : ∀ s : State, s.kv = kv → s.w = w → exec i s = .next (s.afterBlock (f s.block))) : Transforms kv w [i] f :=
  fun s hk hw => runCommands_cons (h s hk hw)

/-- One sequence after another: the later transform applies to what the earlier left. -/
theorem append (hf : Transforms kv w is f) (hg : Transforms kv w js g) : Transforms kv w (is ++ js) fun b => g (f b) := by
  intro s hk hw
  rw [runCommands_append (hf s hk hw), hg (s.afterBlock (f s.block)) hk hw, State.afterBlock_block,
    State.afterBlock_afterBlock]

/-- A sequence that gives the block of STATE back changes LASTCODE only. -/
theorem runCommands_of_fixed {s : State} (h : Transforms s.kv s.w is f) (hb : f s.block = s.block) :
    runCommands is s = .next { s with lastCode := 0 } := by
  rw [h s rfl rfl, hb, State.afterBlock, State.writeBlock_block, ← State.finishOk, State.finishOk_eq]

theorem subbytes : Transforms kv w [.subbytes] subBytes := single fun s _ _ => exec_subbytes s
theorem shiftrows : Transforms kv w [.shiftrows] shiftRows := single fun s _ _ => exec_shiftrows s
theorem mixcolumns : Transforms kv w [.mixcolumns] mixColumns := single fun s _ _ => exec_mixcolumns s
theorem transpose : Transforms kv w [.transpose] transposeBlock := single fun s _ _ => exec_transpose s

theorem addrk (r : Fin 15) : Transforms true w [.addrk (BitVec.ofNat 8 r.val)] (addRoundKey w r) :=
  single fun _ hk hw => hw ▸ exec_addrk hk r

theorem round (r : Fin 15) (h : 1 ≤ r.val ∧ r.val ≤ 13) : Transforms true w [.round (BitVec.ofNat 8 r.val)] (fullRound w r) :=
  single fun _ hk hw => hw ▸ exec_round hk r h

theorem finalround : Transforms true w [.finalround] (finalRound w) :=
  single fun _ hk hw => hw ▸ exec_finalround hk

/-- The four steps of a round (R338). -/
theorem roundSteps (r : Fin 15) :
    Transforms true w [.subbytes, .shiftrows, .mixcolumns, .addrk (BitVec.ofNat 8 r.val)] (fullRound w r) :=
  (subbytes.append (shiftrows.append (mixcolumns.append (addrk r))) :)

/-- The three steps of the final round (R338). -/
theorem finalRoundSteps : Transforms true w [.subbytes, .shiftrows, .addrk 14] (finalRound w) :=
  (subbytes.append (shiftrows.append (addrk 14)) :)

/-- Whatever commands make the single rounds: after key 0, the rounds 1 to n in turn (R339). -/
theorem rounds {body : Nat → List Instr}
    (hbody : ∀ (n : Nat) (hn : n < 13), Transforms true w (body n) (fullRound w ⟨n + 1, by omega⟩)) (n : Nat) (hn : n ≤ 13) :
    Transforms true w (.addrk 0 :: (List.range n).flatMap body) fun b => fullRounds w (addRoundKey w 0 b) n hn := by
  induction n with
  | zero => exact addrk 0
  | succ n ih =>
    rw [List.range_succ, List.flatMap_append, List.flatMap_singleton]
    exact (ih (by omega)).append (hbody n hn)

/-- Whatever commands make the single rounds: key 0, the rounds 1 to 13 and the final round make the cipher (R339). -/
theorem cipher_of_rounds {body : Nat → List Instr} {last : List Instr}
    (hbody : ∀ (n : Nat) (hn : n < 13), Transforms true w (body n) (fullRound w ⟨n + 1, by omega⟩))
    (hlast : Transforms true w last (finalRound w)) :
    Transforms true w (.addrk 0 :: (List.range 13).flatMap body ++ last) (cipher w) :=
  (rounds hbody 13 le_rfl).append hlast

end Transforms

/-- Settles O27: each sequence makes a transform that gives the block back, and RotWord turns the word by 8 of its 32 bits. -/
theorem commandsThatUndoThemselves : Obligations.CommandsThatUndoThemselves := by
  intro s
  refine ⟨?_, ?_, fun hk r => ?_, fun v => word_ext fun k => ?_⟩
  · exact (Transforms.transpose.append .transpose).runCommands_of_fixed (transposeBlock_transposeBlock _)
  · exact ((Transforms.shiftrows.append .shiftrows).append (.append .shiftrows .shiftrows)).runCommands_of_fixed
      (shiftRows_four _)
  · exact (hk ▸ (Transforms.addrk r).append (.addrk r)).runCommands_of_fixed (addRoundKey_addRoundKey _ _ r)
  · have hturn : k + 1 + 1 + 1 + 1 = k := by omega
    simp only [wordByte_rotWord, hturn]

/-- Settles O28: ROUND and its four steps are the full round, FINALROUND and its three steps the final round. -/
theorem roundsComposeToEncrypt : Obligations.RoundsComposeToEncrypt := by
  intro s hk
  refine ⟨_, exec_encrypt hk, ?_, ?_⟩
  · rw [List.map_eq_flatMap]
    exact Transforms.cipher_of_rounds (fun n hn => .round ⟨n + 1, by omega⟩ ⟨by simp, hn⟩) .finalround s hk rfl
  · exact Transforms.cipher_of_rounds (fun n hn => .roundSteps ⟨n + 1, by omega⟩) .finalRoundSteps s hk rfl

/-! ## The commands (R302, R320, R325, R332, R340, R343 to R345) -/

/-- A word of a row with an ARG the row does not admit, or with reserved bits set, is illegal (R155). -/
theorem perform_illegal_of_row {opc : Byte} {lo hi : Nat} {command : Byte → Instr}
    (hrow : ⟨opc, lo, hi, command⟩ ∈ opcodeTable) {c : Word} (hopc : opcField c = opc)
    (h : ¬ (lo ≤ (argField c).toNat ∧ (argField c).toNat ≤ hi) ∨ rsvField c ≠ 0) (s : State) :
    perform c s = .next (afterIllegal s) := by
  refine illegalWordsComplete c s ?_
  by_cases hrsv : rsvField c = 0
  · exact (illegalWord_iff_of_row hrow hopc.symm hrsv).mpr (h.resolve_right (not_not.mpr hrsv))
  · exact .inl hrsv

/-- The word of a legal command, written as its rule writes it, is performed as the command (R152, R158). -/
theorem perform_wordWithArg {i : Instr} (h : i.wellFormed = true) (s : State) :
    perform (wordWithArg (i.opcode.setWidth 32) i.arg) s = exec i s := by
  rw [wordWithArg_eq_encodeFields]
  exact perform_encode h s

/-- A command that succeeds on STATE changes STATE and LASTCODE only; what holds of the new state is `P`. -/
theorem exec_perform_of_afterBlock {i : Instr} {c : Word} {s : State} {b : Block} {P : State → Prop}
    (hc : perform c s = exec i s) (h : exec i s = .next (s.afterBlock b)) (hP : P (s.afterBlock b)) :
    ∃ t, exec i s = .next t ∧ perform c s = .next t ∧ OnlyBlock s t ∧ t.lastCode = 0 ∧ P t :=
  ⟨_, h, hc.trans h, s.afterBlock_onlyBlock b, rfl, hP⟩

/-- A legal command that reads the schedule fails without an engine (R501). -/
theorem exec_of_no_engine {i : Instr} {s : State} (hwf : i.wellFormed = true) (hn : needsKey i = true) (hk : s.kv = false) :
    exec i s = .next (afterNoKey s) := by
  cases i with
  | encrypt | finalround => exact State.requireKey_unloaded hk _
  | addrk | round => exact (dif_pos (of_decide_eq_true hwf)).trans (State.requireKey_unloaded hk _)
  | _ => cases hn

/-- Without an engine a word performed as such a command fails alike (R501). -/
theorem exec_perform_of_no_engine {i : Instr} {c : Word} {s : State} (hc : perform c s = exec i s)
    (hwf : i.wellFormed = true) (hn : needsKey i = true) (hk : s.kv = false) :
    exec i s = .next (afterNoKey s) ∧ perform c s = .next (afterNoKey s) :=
  have h := exec_of_no_engine hwf hn hk
  ⟨h, hc.trans h⟩

/-- ENCRYPT of another length than 16 changes LASTCODE and ERR only (R345). -/
theorem exec_encrypt_wrongLength {len : Byte} {s : State} (hk : s.kv = true) (h : len.toNat ≠ 16) :
    exec (.encrypt len) s = .next { s with lastCode := 3, err := true } :=
  (State.requireKey_loaded hk _).trans ((if_pos h).trans s.raiseErr_invalidBlockLength)

/-- Settles O9: by the three outcomes of ENCRYPT; a word with reserved bits set is one of R155's. -/
theorem encryptCommand : Obligations.EncryptCommand := by
  intro s
  have hword (len : Byte) : perform (wordWithArg 0x00000002 len) s = exec (.encrypt len) s :=
    perform_wordWithArg (i := .encrypt len) rfl s
  refine ⟨fun hk => ?_, fun len hk => ?_, fun len hk hlen => ?_, fun c _ hrsv => illegalWordsComplete c s (.inl hrsv)⟩
  · exact exec_perform_of_afterBlock (hword 16) (exec_encrypt hk) (State.afterBlock_block ..)
  · exact exec_perform_of_no_engine (hword len) rfl rfl hk
  · have hfail := exec_encrypt_wrongLength hk hlen
    exact ⟨hfail, (hword len).trans hfail⟩

/-- AddRoundKey on the registers of STATE: register j takes word 4r + j of the schedule (R335, R54). -/
theorem getElem_wordsOfBlock_addRoundKey (s : State) (w : Vector Word 60) (r : Fin 15) (j : Fin 4) :
    (wordsOfBlock (addRoundKey w r s.block))[j] = s.state[j] ^^^ w[4 * r.val + j.val] :=
  word_ext fun k => by rw [wordByte_wordsOfBlock, cell_addRoundKey, cell_block, wordByte_xor]

/-- Settles O10: the round key is added register by register. -/
theorem addrkCommand : Obligations.AddrkCommand := by
  intro s
  have hwf (r : Fin 15) : (Instr.addrk (BitVec.ofNat 8 r.val)).wellFormed = true := by
    simp only [Instr.wellFormed, toNat_ofNat_roundIndex, decide_eq_true_eq]
    omega
  refine ⟨fun r hk => ?_, fun r hk => ?_, fun c hopc h => ?_⟩
  · exact exec_perform_of_afterBlock (perform_wordWithArg (hwf r) s) (exec_addrk hk r)
      (getElem_wordsOfBlock_addRoundKey s s.w r)
  · exact exec_perform_of_no_engine (perform_wordWithArg (hwf r) s) (hwf r) rfl hk
  · exact perform_illegal_of_row (lo := 0) (hi := 14) (command := .addrk) (by simp [opcodeTable]) hopc
      (h.imp_left fun harg hlegal => by omega) s

/-- Settles O14: ROUND is the full round, which its four steps make. -/
theorem roundCommand : Obligations.RoundCommand := by
  intro s
  have hwf (r : Fin 15) (h : 1 ≤ r.val ∧ r.val ≤ 13) : (Instr.round (BitVec.ofNat 8 r.val)).wellFormed = true := by
    simp only [Instr.wellFormed, toNat_ofNat_roundIndex, h, decide_eq_true_eq, and_self]
  refine ⟨fun r hmin hmax hk => ?_, fun r hmin hmax hk => ?_, fun c hopc h => ?_⟩
  · exact exec_perform_of_afterBlock (perform_wordWithArg (hwf r ⟨hmin, hmax⟩) s) (exec_round hk r ⟨hmin, hmax⟩)
      ⟨State.afterBlock_block .., Transforms.roundSteps r s hk rfl⟩
  · exact exec_perform_of_no_engine (perform_wordWithArg (hwf r ⟨hmin, hmax⟩) s) (hwf r ⟨hmin, hmax⟩) rfl hk
  · exact perform_illegal_of_row (lo := 1) (hi := 13) (command := .round) (by simp [opcodeTable]) hopc
      ((or_assoc.mpr h).imp_left fun harg hlegal => by omega) s

/-- Settles O15: FINALROUND is the final round, which its three steps make. -/
theorem finalroundCommand : Obligations.FinalroundCommand := by
  intro s
  refine ⟨fun hk => ?_, fun hk => ?_, fun c hopc hne => ?_⟩
  · exact exec_perform_of_afterBlock (perform_encode (i := .finalround) rfl s) (exec_finalround hk)
      ⟨State.afterBlock_block .., Transforms.finalRoundSteps s hk rfl⟩
  · exact exec_perform_of_no_engine (perform_encode (i := .finalround) rfl s) rfl rfl hk
  · exact perform_illegal_of_noOperand (i := .finalround) (by simp [opcodeTable, Instr.opcode]) hopc hne s

/-- A command on STATE without operand, in full: the command, its word, and the other words with its opcode (R155). -/
theorem exec_perform_of_noOperand {i : Instr} (hrow : ⟨i.opcode, 0, 0, fun _ => i⟩ ∈ opcodeTable) {s : State} {b : Block}
    {P : State → Prop} (h : exec i s = .next (s.afterBlock b)) (hP : P (s.afterBlock b)) :
    (∃ t, exec i s = .next t ∧ perform (encode i) s = .next t ∧ OnlyBlock s t ∧ t.lastCode = 0 ∧ P t) ∧
      ∀ c : Word, opcField c = i.opcode → c ≠ encode i → perform c s = .next (afterIllegal s) := by
  obtain ⟨-, -, hwf⟩ := opcodeTable_row_command _ hrow 0 le_rfl le_rfl
  exact ⟨exec_perform_of_afterBlock (perform_encode hwf s) h hP,
    fun _ hopc hne => perform_illegal_of_noOperand hrow hopc hne s⟩

/-- Settles O11: the substituted block is the command's result. -/
theorem subbytesCommand : Obligations.SubbytesCommand := fun s =>
  exec_perform_of_noOperand (i := .subbytes) (by simp [opcodeTable, Instr.opcode]) (exec_subbytes s)
    fun k => by rw [State.afterBlock_block, getElem_subBytes]

/-- Settles O12: the block with its rows shifted is the command's result. -/
theorem shiftrowsCommand : Obligations.ShiftrowsCommand := fun s =>
  exec_perform_of_noOperand (i := .shiftrows) (by simp [opcodeTable, Instr.opcode]) (exec_shiftrows s)
    fun k => by rw [State.afterBlock_block, getElem_shiftRows]

/-- Settles O13: the command's result has the combined columns. -/
theorem mixcolumnsCommand : Obligations.MixcolumnsCommand := by
  intro s
  refine exec_perform_of_noOperand (i := .mixcolumns) (by simp [opcodeTable, Instr.opcode]) (exec_mixcolumns s) ?_
  rintro c _ _ _ _ rfl rfl rfl rfl
  have hcolumn := columnOf_mixColumns s.block c
  rw [columnOf_eq, columnOf_eq] at hcolumn
  simpa [mixColumn] using hcolumn

/-- Settles O16: the transposed block is the command's result. -/
theorem transposeCommand : Obligations.TransposeCommand := fun s =>
  exec_perform_of_noOperand (i := .transpose) (by simp [opcodeTable, Instr.opcode]) (exec_transpose s)
    fun k => by rw [State.afterBlock_block, getElem_transposeBlock]

/-- Settles O30, by evaluation. -/
theorem cipherKnownAnswer : Obligations.CipherKnownAnswer := by
  unfold Obligations.CipherKnownAnswer
  decide +kernel

end Sys2Proof.Machine
end

section
/-! PROOFS. Padding (43_padding.md): padding and unpadding a sequence of bytes, the commands PAD and UNPAD, and the final block of a
message, loaded by the host and completed by PAD. -/

namespace Sys2Proof.Machine

/-! ## Sequences of bytes (R370, R371) -/

/-- The fill byte of a sequence counts the fill (R370). -/
theorem toNat_ofNat_padCount (n : Nat) : (BitVec.ofNat 8 (16 - n)).toNat = 16 - n := by
  rw [BitVec.toNat_ofNat]; omega

/-- What ends in a count of 1 to 16, that many times, unpads to what stands before it (R371). -/
theorem unpadSeq_append_replicate (d : List Byte) {n : Byte} (hpos : 0 < n.toNat) (hmax : n.toNat ≤ 16) :
    unpadSeq (d ++ List.replicate n.toNat n) = some d := by
  have hlast : (d ++ List.replicate n.toNat n).getLast? = some n := by
    rw [List.getLast?_append, List.getLast?_replicate, if_neg (by omega), Option.some_or]
  have hlen : (d ++ List.replicate n.toNat n).length - n.toNat = d.length := by simp
  have hfits : ¬ n.toNat > (d ++ List.replicate n.toNat n).length := by simp
  have hfill : (List.replicate n.toNat n).any (· != n) = false := by simp
  simp only [unpadSeq, hlast, hlen, List.drop_left, List.take_left, hfill, if_neg hfits, if_neg (Nat.not_lt.mpr hmax),
    Bool.false_eq_true, if_false]

/-- Settles O29: the fill is a count of 1 to 16, that many times. -/
theorem unpadOfPad : Obligations.UnpadOfPad := by
  intro d
  have hfill := unpadSeq_append_replicate d (n := BitVec.ofNat 8 (16 - d.length % 16))
  rw [toNat_ofNat_padCount] at hfill
  exact hfill (by omega) (by omega)

/-- Whole blocks before the end of a sequence have no part in its padding (R370). -/
theorem drop_padSeq {d : List Byte} {i : Nat} (h : 16 * i ≤ d.length) :
    (padSeq d).drop (16 * i) = padSeq (d.drop (16 * i)) := by
  have hmod : (d.length - 16 * i) % 16 = d.length % 16 := Nat.sub_mul_mod h
  rw [padSeq, padSeq, List.drop_append_of_le_length h, List.length_drop, hmod]

/-- The first block of a padded sequence is the sequence's own, if it has a full one (R370). -/
theorem take_padSeq {d : List Byte} (h : 16 ≤ d.length) : (padSeq d).take 16 = d.take 16 :=
  List.take_append_of_le_length h

/-! ## PAD and UNPAD (R380, R385) -/

/-- PAD's fill, byte by byte (R380). -/
theorem getElem_padBlock (n : Nat) (b : Block) (k : Fin 16) :
    (padBlock n b)[k] = if k.val < n then b[k] else BitVec.ofNat 8 (16 - n) := by
  simp [padBlock]

/-- PAD of 0 to 15 is legal (R153, R380). -/
theorem wellFormed_pad (r : Fin 16) : (Instr.pad (BitVec.ofNat 8 r.val)).wellFormed = true := by
  simp only [Instr.wellFormed, BitVec.toNat_ofNat, decide_eq_true_eq]
  omega

/-- Settles O22: the filled block is the command's result. -/
theorem padCommand : Obligations.PadCommand := by
  intro s
  refine ⟨fun r => ?_, fun c hopc h => ?_⟩
  · refine exec_perform_of_afterBlock (perform_wordWithArg (wellFormed_pad r) s) (exec_pad s r) fun k => ?_
    rw [State.afterBlock_block, getElem_padBlock]
    exact ⟨fun hlt => if_pos hlt, fun hle => by rw [if_neg (Nat.not_lt.mpr hle), toNat_ofNat_padCount]⟩
  · exact perform_illegal_of_row (lo := 0) (hi := 15) (command := .pad) (by simp [opcodeTable]) hopc
      (h.imp_left fun harg hlegal => by omega) s

/-- UNPAD of valid padding sets PV, PADINFO and LASTCODE only (R385). -/
theorem exec_unpad_of_valid {vlen : Byte} {s : State} (hv : vlen.toNat ≤ 16) (h : PaddingValid s.block vlen.toNat) :
    exec (.unpad vlen) s =
      .next { s.setPadInfo s.block[15].toNat (vlen.toNat - s.block[15].toNat) with lastCode := 0 } := by
  simp only [exec, execUnpad, if_pos hv, paddingCount_eq, if_pos h, State.finishOk_eq]

/-- UNPAD of anything else clears PV and PADINFO, and sets LASTCODE and ERR (R385, R504). -/
theorem exec_unpad_of_not_valid {vlen : Byte} {s : State} (hv : vlen.toNat ≤ 16) (h : ¬ PaddingValid s.block vlen.toNat) :
    exec (.unpad vlen) s = .next { s.clearPadInfo with lastCode := 4, err := true } := by
  simp only [exec, execUnpad, if_pos hv, paddingCount_eq, if_neg h, State.raiseErr_invalidPadding]

/-- Settles O23: by the two outcomes of UNPAD; the count and the kept length are at most 16, so PADINFO's fields hold them. -/
theorem unpadCommand : Obligations.UnpadCommand := by
  intro s
  have hvlen (v : Fin 17) : (BitVec.ofNat 8 v.val).toNat = v.val := by rw [BitVec.toNat_ofNat]; omega
  have hmax (v : Fin 17) : (BitVec.ofNat 8 v.val).toNat ≤ 16 := by rw [hvlen]; omega
  have hword (v : Fin 17) := perform_wordWithArg (i := .unpad (BitVec.ofNat 8 v.val)) (decide_eq_true (hmax v)) s
  refine ⟨fun v hvalid => ?_, fun v hvalid => ?_, fun c hopc h => ?_⟩
  · have hexec := exec_unpad_of_valid (hmax v) (by rwa [hvlen])
    rw [hvlen] at hexec
    have hfield (n : Nat) (hn : n ≤ 16) : (BitVec.ofNat 5 n).toNat = n := by rw [BitVec.toNat_ofNat]; omega
    obtain ⟨-, hcount, -⟩ := hvalid
    exact ⟨_, hexec, (hword v).trans hexec, rfl, hfield _ hcount, hfield _ (by omega)⟩
  · have hexec := exec_unpad_of_not_valid (hmax v) (by rwa [hvlen])
    exact ⟨hexec, (hword v).trans hexec⟩
  · exact perform_illegal_of_row (lo := 0) (hi := 16) (command := .unpad) (by simp [opcodeTable]) hopc
      (h.imp_left fun harg hlegal => by omega) s

/-! ## The final block of a message (R381) -/

/-- A register of the block of 16 bytes is their word (R9, R54). -/
theorem getElem_wordsOfBlock_blockOfBytes (d : List Byte) (j : Nat) (hj : j < 4) :
    (wordsOfBlock (blockOfBytes d))[j] = wordAt d j := by
  simp [wordsOfBlock, blockOfBytes, wordAt]

/-- `LDSTATE` writes STATE, all 16 bytes of it, and nothing else of the block (R161). -/
theorem runHost_ldState {s : State} (hs : s.resetAsserted = false) (d : List Byte) :
    runHost (ldState d) s = .next ((s.writeBlock (blockOfBytes d)).respond .done, []) := by
  have hwords : wordsOfBlock (blockOfBytes d) =
      (((s.state.set 0 (wordAt d 0)).set 1 (wordAt d 1)).set 2 (wordAt d 2)).set 3 (wordAt d 3) := by
    apply Vector.ext
    intro j hj
    rw [getElem_wordsOfBlock_blockOfBytes]
    interval_cases j <;> simp
  rw [State.writeBlock, hwords]
  exact runHost_cons (takeEvent_wr hs nofun rfl) <| runHost_cons (takeEvent_wr hs nofun rfl) <|
    runHost_cons (takeEvent_wr hs nofun rfl) <| runHost_cons (takeEvent_wr hs nofun rfl) rfl

/-- Issuing a legal command performs it (R160). -/
theorem runHost_issue {i : Instr} {s t : State} (hs : s.resetAsserted = false) (hwf : i.wellFormed = true)
    (h : exec i (s.respond .done) = .next t) : runHost [issue i] s = .next (t, []) :=
  runHost_cons ((takeEvent_wr_cmd hs).trans ((perform_encode hwf _).trans h)) rfl

/-- PAD makes the padding of a partial block, whatever bytes follow it (R370, R380). -/
theorem toList_padBlock_blockOfBytes {d : List Byte} (h : d.length < 16) (fill : List Byte) :
    (padBlock d.length (blockOfBytes (d ++ fill))).toList = padSeq d := by
  rw [padSeq, Nat.mod_eq_of_lt h]
  refine List.ext_getElem (by simp; omega) fun k hk _ => ?_
  rw [Vector.getElem_toList]
  refine (getElem_padBlock d.length (blockOfBytes (d ++ fill)) ⟨k, by simpa using hk⟩).trans ?_
  by_cases hdata : k < d.length
  · rw [if_pos hdata, List.getElem_append_left hdata]
    simp [blockOfBytes, List.getElem?_append_left hdata, hdata]
  · rw [if_neg hdata, List.getElem_append_right (Nat.le_of_not_lt hdata), List.getElem_replicate]

/-- Settles O31: the block loaded is the final partial block and fill, and PAD makes its padding, the end of the message's. -/
theorem padCompletesTheMessage : Obligations.PadCompletesTheMessage := by
  intro s d fill hs
  have hq : 16 * (d.length / 16) ≤ d.length := Nat.mul_div_le ..
  have hlen : (d.drop (16 * (d.length / 16))).length = d.length % 16 := by rw [List.length_drop]; omega
  let r : Fin 16 := ⟨d.length % 16, Nat.mod_lt _ (by decide)⟩
  refine ⟨⟨_, runHost_append (runHost_ldState hs _) (runHost_issue hs (wellFormed_pad r) (exec_pad _ r)), ?_⟩, fun i hi => ?_⟩
  · rw [State.afterBlock_block, State.block_respond, State.block_respond, State.block_writeBlock, drop_padSeq hq,
      show r.val = _ from hlen.symm]
    exact toList_padBlock_blockOfBytes (by omega) fill.toList
  · rw [drop_padSeq (by omega), take_padSeq (by rw [List.length_drop]; omega)]

end Sys2Proof.Machine
end

section
/-! PROOFS. Control and the host's procedures (44_control_and_host.md): NOP, commands issued while ERR is set, the ciphertext of a
message block by block, and the procedures CONSTRUCT, ENCRYPT_MESSAGE and UNPAD_BUFFER as runs of their events. -/

namespace Sys2Proof.Machine

/-! ## NOP and a command issued while ERR is set (R410, R425) -/

/-- Settles O6: NOP finishes at once; a word with its opcode and anything else set is one of R155's. -/
theorem nopCommand : Obligations.NopCommand := by
  intro s
  have hexec : exec .nop s = .next { s with lastCode := 0 } := s.finishOk_eq
  exact ⟨hexec, (perform_encode (i := .nop) rfl s).trans hexec, fun _ hopc hne =>
    perform_illegal_of_noOperand (i := .nop) (by simp [opcodeTable, Instr.opcode]) hopc hne s⟩

/-- Settles O36: no command reads ERR, and none clears it. -/
theorem errDoesNotBlock : Obligations.ErrDoesNotBlock := by
  intro c s t h
  refine perform_independent (f := fun s => { s with err := true }) rfl (fun i _ => ?_) h
  constructor <;> constructor
  all_goals intros; rfl

/-! ## The blocks of a ciphertext (R430, R435) -/

section EncryptBlocks

variable (w : Vector Word 60)

/-- A padded sequence is one block longer than the whole blocks of the sequence (R370, C2). -/
theorem length_padSeq (p : List Byte) : (padSeq p).length = 16 * (p.length / 16 + 1) := by
  rw [padSeq, List.length_append, List.length_replicate]
  omega

/-- The number of blocks R430 encrypts. -/
theorem encryptMessage_eq (p : List Byte) : encryptMessage w p = encryptBlocks w (p.length / 16 + 1) (padSeq p) := by
  rw [encryptMessage, length_padSeq, Nat.mul_div_cancel_left _ (by decide)]

@[simp] theorem length_encryptBlocks (n : Nat) (q : List Byte) : (encryptBlocks w n q).length = 16 * n := by
  induction n generalizing q with
  | zero => rfl
  | succ n ih => rw [encryptBlocks, List.length_append, ih, Vector.length_toList]; omega

theorem encryptBlocks_one (q : List Byte) : encryptBlocks w 1 q = (cipher w (blockOfBytes (q.take 16))).toList :=
  List.append_nil _

/-- The blocks are encrypted one by one, so a message's blocks are its first blocks, then the others. -/
theorem encryptBlocks_add (m n : Nat) (q : List Byte) :
    encryptBlocks w (m + n) q = encryptBlocks w m q ++ encryptBlocks w n (q.drop (16 * m)) := by
  induction m generalizing q with
  | zero => rw [Nat.zero_add]; rfl
  | succ m ih =>
    rw [Nat.add_right_comm, encryptBlocks, encryptBlocks, ih, List.append_assoc, List.drop_drop, Nat.mul_succ, Nat.add_comm]

/-- Bytes beyond the blocks encrypted have no part in them. -/
theorem encryptBlocks_append {n : Nat} {q : List Byte} (h : 16 * n ≤ q.length) (r : List Byte) :
    encryptBlocks w n (q ++ r) = encryptBlocks w n q := by
  induction n generalizing q with
  | zero => rfl
  | succ n ih =>
    rw [encryptBlocks, encryptBlocks, List.take_append_of_le_length (by omega), List.drop_append_of_le_length (by omega),
      ih (by rw [List.length_drop]; omega)]

/-- Block i of a ciphertext is the cipher of block i (R430). -/
theorem take_drop_encryptBlocks {i n : Nat} (h : i < n) (q : List Byte) :
    ((encryptBlocks w n q).drop (16 * i)).take 16 = (cipher w (blockOfBytes ((q.drop (16 * i)).take 16))).toList := by
  obtain ⟨k, rfl⟩ : ∃ k, n = i + (k + 1) := ⟨n - i - 1, by omega⟩
  rw [encryptBlocks_add, List.drop_left' (length_encryptBlocks w i q), encryptBlocks, List.take_left' (Vector.length_toList ..)]

end EncryptBlocks

/-- Settles O32: every block is the cipher of its own block of the padded message, so equal blocks give equal blocks. -/
theorem encryptMessageBlocks : Obligations.EncryptMessageBlocks := by
  intro w p
  rw [encryptMessage_eq]
  have hblock (i : Nat) (hi : i < p.length / 16 + 1) := take_drop_encryptBlocks w hi (padSeq p)
  exact ⟨length_encryptBlocks .., hblock, fun i j hi hj heq => by rw [hblock i hi, hblock j hj, heq]⟩

/-! ## The parts of the host's procedures (R160, R161) -/

/-- `RD reg` answers the register's value and changes the response only (R160). -/
theorem runHost_rd {r : Reg} {s : State} (hs : s.resetAsserted = false) :
    runHost [rd r] s = .next (s.respond (.data (s.readReg r)), [s.readReg r]) :=
  runHost_cons (takeEvent_rd hs) rfl

/-- `RDSTATE` answers the registers of STATE and changes the response only (R161). -/
theorem runHost_rdState {s : State} (hs : s.resetAsserted = false) :
    runHost rdState s = .next (s.respond (.data s.state[3]), [s.state[0], s.state[1], s.state[2], s.state[3]]) :=
  runHost_cons (takeEvent_rd hs) <| runHost_cons (takeEvent_rd hs) <| runHost_cons (takeEvent_rd hs) <| runHost_rd hs

/-- `LDKEY` writes the key words and changes nothing else of the block (R161). -/
theorem runHost_ldKey {s : State} (hs : s.resetAsserted = false) (k : List Byte) :
    runHost (ldKey k) s = .next (({ s with key := Vector.ofFn fun j => wordAt k j.val }).respond .done, []) := by
  have hwords : (Vector.ofFn fun j : Fin 8 => wordAt k j.val) =
      (((((((s.key.set 0 (wordAt k 0)).set 1 (wordAt k 1)).set 2 (wordAt k 2)).set 3 (wordAt k 3)).set 4 (wordAt k 4)).set 5
        (wordAt k 5)).set 6 (wordAt k 6)).set 7 (wordAt k 7) := by
    apply Vector.ext
    intro j hj
    interval_cases j <;> simp
  rw [hwords]
  iterate 8 refine runHost_cons (takeEvent_wr hs nofun rfl) ?_
  rfl

/-- Issuing a legal command and reading STATUS after it (R160, R161). -/
theorem runHost_issue_check {i : Instr} {s t : State} (hs : s.resetAsserted = false) (hwf : i.wellFormed = true)
    (h : exec i (s.respond .done) = .next t) (ht : t.resetAsserted = false) :
    runHost ([issue i] ++ check) s = .next (t.respond (.data t.statusWord), [t.statusWord]) :=
  runHost_append (runHost_issue hs hwf h) (runHost_rd (r := .status) ht)

/-! ## CONSTRUCT (R433) -/

/-- The declared length is 32 for a key of 32 bytes only. -/
theorem toNat_declaredLength_eq_iff (n : Nat) : (BitVec.ofNat 8 (min n 255)).toNat = 32 ↔ n = 32 := by
  rw [BitVec.toNat_ofNat, Nat.mod_eq_of_lt (by omega)]
  omega

/-- Settles O58: the key is written if it has 32 bytes, and EXPAND succeeds for that length only. -/
theorem constructProcedure : Obligations.ConstructProcedure := by
  intro s k hs
  by_cases h : k.length = 32
  · have hexpand := exec_expand_eq ((toNat_declaredLength_eq_iff k.length).mpr h)
    have hrun := runHost_append (runHost_ldKey hs k) (runHost_issue_check hs rfl (hexpand _) hs)
    rw [constructProgram, if_pos h, List.append_assoc]
    exact ⟨_, _, hrun, rfl, fun _ => ⟨rfl, rfl, rfl⟩, fun hne => absurd h hne⟩
  · have hexpand := exec_expand_wrongLength_eq (mt (toNat_declaredLength_eq_iff k.length).mp h)
    have hrun := runHost_issue_check hs rfl (hexpand _) hs
    rw [constructProgram, if_neg h, List.nil_append]
    exact ⟨_, _, hrun, rfl, fun heq => absurd heq h, fun _ => ⟨rfl, rfl, rfl⟩⟩

/-! ## ENCRYPT_MESSAGE (R431) -/

/-- The bytes of a packed word (R9). -/
theorem bytesOfWord_wordOf (b0 b1 b2 b3 : Byte) : bytesOfWord (wordOf b0 b1 b2 b3) = [b0, b1, b2, b3] := by
  rw [bytesOfWord, columnOfWord_wordOf]
  rfl

/-- The bytes the host reads from STATE are the block's (R54, R106). -/
theorem bytesOfWords_wordsOfBlock (b : Block) :
    bytesOfWords [(wordsOfBlock b)[0], (wordsOfBlock b)[1], (wordsOfBlock b)[2], (wordsOfBlock b)[3]] = b.toList := by
  obtain ⟨f, rfl⟩ : ∃ f, b = Vector.ofFn f := ⟨fun k => b[k], by simp⟩
  simp [bytesOfWords, bytesOfWord_wordOf, wordsOfBlock, Vector.toList, List.ofFn_succ]

theorem bytesOfWords_append (vs ws : List Word) : bytesOfWords (vs ++ ws) = bytesOfWords vs ++ bytesOfWords ws :=
  List.flatMap_append

/-- A block read as 16 bytes and packed again is the block (R9). -/
@[simp] theorem blockOfBytes_toList (b : Block) : blockOfBytes b.toList = b := by
  apply Vector.ext
  intro k hk
  simp [blockOfBytes]

/-- A host ready to encrypt: an engine with the schedule `w`, the staged key, no error reported, and reset released (R431). -/
structure EngineReady (w : Vector Word 60) (key : Vector Word 8) (s : State) : Prop where
  w : s.w = w
  key : s.key = key
  kv : s.kv = true
  err : s.err = false
  resetAsserted : s.resetAsserted = false

/-- From every state ready to encrypt the program completes, the host reads back these bytes, and the state is ready again. -/
def ReadsBack (w : Vector Word 60) (key : Vector Word 8) (es : List HostEvent) (bytes : List Byte) : Prop :=
  ∀ s, EngineReady w key s → ∃ t reads, runHost es s = .next (t, reads) ∧ bytesOfWords reads = bytes ∧ EngineReady w key t

section ReadsBack

variable {w : Vector Word 60} {key : Vector Word 8}

theorem ReadsBack.append {es fs : List HostEvent} {as bs : List Byte} (he : ReadsBack w key es as) (hf : ReadsBack w key fs bs) :
    ReadsBack w key (es ++ fs) (as ++ bs) := by
  intro s hs
  obtain ⟨t, vs, hrun, rfl, ht⟩ := he s hs
  obtain ⟨u, ws, hrun', rfl, hu⟩ := hf t ht
  exact ⟨u, vs ++ ws, runHost_append hrun hrun', bytesOfWords_append vs ws, hu⟩

/-- Writes to STATE and to the response leave a state ready. -/
theorem EngineReady.afterBlock {s : State} (h : EngineReady w key s) (b : Block) : EngineReady w key (s.afterBlock b) :=
  ⟨h.w, h.key, h.kv, (s.afterBlock_err b).trans h.err, h.resetAsserted⟩

theorem EngineReady.respond {s : State} (h : EngineReady w key s) (r : Response) : EngineReady w key (s.respond r) :=
  ⟨h.w, h.key, h.kv, h.err, h.resetAsserted⟩

theorem EngineReady.writeBlock {s : State} (h : EngineReady w key s) (b : Block) : EngineReady w key (s.writeBlock b) :=
  ⟨h.w, h.key, h.kv, h.err, h.resetAsserted⟩

/-- Events that load the block `b` into STATE, then ENC and RDSTATE: the cipher of `b` is read back. -/
theorem ReadsBack.enc_rdState {es : List HostEvent} {b : Block}
    (h : ∀ s, EngineReady w key s → ∃ t, runHost es s = .next (t, []) ∧ EngineReady w key t ∧ t.block = b) :
    ReadsBack w key (es ++ enc ++ rdState) (cipher w b).toList := by
  intro s hs
  obtain ⟨t, hrun, ht, rfl⟩ := h s hs
  refine ⟨_, _, runHost_append (runHost_append hrun (runHost_issue ht.resetAsserted rfl (exec_encrypt ht.kv)))
    (runHost_rdState ht.resetAsserted), ?_, ((ht.respond _).afterBlock _).respond _⟩
  rw [← ht.w]
  exact bytesOfWords_wordsOfBlock (cipher t.w t.block)

/-- A full block, loaded, encrypted and read back (R431). -/
theorem ReadsBack.fullBlock (d : List Byte) : ReadsBack w key (ldState d ++ enc ++ rdState) (cipher w (blockOfBytes d)).toList :=
  enc_rdState fun s hs => ⟨_, runHost_ldState hs.resetAsserted d, (hs.writeBlock _).respond _, s.block_writeBlock _⟩

/-- The final partial block, loaded with any bytes after it, padded, encrypted and read back (R381, R431). -/
theorem ReadsBack.finalBlock {d : List Byte} (h : d.length < 16) (fill : List Byte) :
    ReadsBack w key (ldState (d ++ fill) ++ [issue (.pad (BitVec.ofNat 8 d.length))] ++ enc ++ rdState)
      (cipher w (blockOfBytes (padSeq d))).toList := by
  refine enc_rdState fun s hs => ⟨_, runHost_append (runHost_ldState hs.resetAsserted _)
    (runHost_issue hs.resetAsserted (wellFormed_pad ⟨d.length, h⟩) (exec_pad _ ⟨d.length, h⟩)),
    (((hs.writeBlock _).respond _).respond _).afterBlock _, ?_⟩
  rw [State.afterBlock_block, State.block_respond, State.block_respond, State.block_writeBlock,
    ← toList_padBlock_blockOfBytes h fill, blockOfBytes_toList]

/-- The full blocks of a message are read back encrypted (R431). -/
theorem ReadsBack.fullBlocks (n : Nat) (p : List Byte) : ReadsBack w key (fullBlocksProgram n p) (encryptBlocks w n p) := by
  induction n generalizing p with
  | zero => exact fun s hs => ⟨s, [], rfl, rfl, hs⟩
  | succ n ih => exact (fullBlock (p.take 16)).append (ih (p.drop 16))

end ReadsBack

/-- A message's ciphertext is its full blocks', then that of the final partial block, padded (R430). -/
theorem encryptMessage_eq_append (w : Vector Word 60) (p : List Byte) :
    encryptMessage w p = encryptBlocks w (p.length / 16) p ++
      (cipher w (blockOfBytes (padSeq (p.drop (16 * (p.length / 16)))))).toList := by
  have hq : 16 * (p.length / 16) ≤ p.length := Nat.mul_div_le ..
  have hlast : (padSeq (p.drop (16 * (p.length / 16)))).length ≤ 16 := by rw [length_padSeq, List.length_drop]; omega
  rw [encryptMessage_eq, encryptBlocks_add, encryptBlocks_one, drop_padSeq hq, List.take_of_length_le hlast, padSeq,
    encryptBlocks_append w hq]

/-- Without an error reported the host returns the bytes read before STATUS (R431). -/
theorem encryptMessageResult_append_status (reads : List Word) {s : State} (h : s.err = false) :
    encryptMessageResult (reads ++ [s.statusWord]) = some (bytesOfWords reads) := by
  have hbit : s.statusWord.getLsbD 2 = false := (s.getLsbD_statusWord 2).trans h
  simp only [encryptMessageResult, List.getLast?_concat, hbit, Bool.false_eq_true, if_false, List.dropLast_concat]

/-- Settles O59: the full blocks, then the padded one, are read back encrypted, and no error is reported. -/
theorem encryptMessageProcedure : Obligations.EncryptMessageProcedure := by
  intro s p fill hkv herr hs
  have hlen : (p.drop (16 * (p.length / 16))).length = p.length % 16 := by rw [List.length_drop]; omega
  have hfinal := ReadsBack.finalBlock (w := s.w) (key := s.key) (d := p.drop (16 * (p.length / 16))) (by omega) fill.toList
  rw [hlen] at hfinal
  obtain ⟨t, reads, hrun, hbytes, ht⟩ := (ReadsBack.fullBlocks (p.length / 16) p).append hfinal s ⟨rfl, rfl, hkv, herr, hs⟩
  have hcheck := runHost_append hrun (runHost_rd (r := .status) ht.resetAsserted)
  rw [← List.append_assoc, ← List.append_assoc, ← List.append_assoc] at hcheck
  refine ⟨_, _, hcheck, ?_, ht.w, ht.key, ht.err⟩
  rw [encryptMessage_eq_append, ← hbytes]
  exact encryptMessageResult_append_status reads ht.err

/-! ## UNPAD_BUFFER (R432) -/

/-- LASTCODE in the word software reads of STATUS (R61). -/
theorem State.extractLsb'_statusWord (s : State) : s.statusWord.extractLsb' 8 4 = s.lastCode := by
  apply BitVec.eq_of_getLsbD_eq
  intro k hk
  rw [BitVec.getLsbD_extractLsb', State.getLsbD_statusWord, decide_eq_true hk, Bool.true_and]
  simp only [show ¬ 8 + k = 0 by omega, show ¬ 8 + k = 1 by omega, show ¬ 8 + k = 2 by omega, show 8 + k ≤ 11 by omega,
    Nat.le_add_right, Nat.add_sub_cancel_left, and_self, if_true, if_false]

/-- N in the word software reads of PADINFO (R64). -/
theorem State.extractLsb'_padInfoWord (s : State) : s.padInfoWord.extractLsb' 0 5 = s.padN := by
  apply BitVec.eq_of_getLsbD_eq
  intro k hk
  rw [BitVec.getLsbD_extractLsb', State.getLsbD_padInfoWord, decide_eq_true hk, Bool.true_and, Nat.zero_add,
    if_pos (Nat.le_of_lt_succ hk)]

/-- On INVALID_PADDING the host returns the error (R432). -/
theorem unpadBufferResult_of_invalidPadding (d : List Byte) {s : State} (h : s.lastCode = 4) :
    unpadBufferResult d [s.statusWord, s.padInfoWord] = none :=
  if_pos (s.extractLsb'_statusWord.trans h)

/-- On OK the host returns the buffer without its last PADINFO.N bytes (R432). -/
theorem unpadBufferResult_of_ok (d : List Byte) {s : State} (h : s.lastCode = 0) :
    unpadBufferResult d [s.statusWord, s.padInfoWord] = some (d.take (d.length - s.padN.toNat)) := by
  have hcode : s.statusWord.extractLsb' 8 4 ≠ 4 := by simp [State.extractLsb'_statusWord, h]
  rw [unpadBufferResult, if_neg hcode, State.extractLsb'_padInfoWord]

/-- The block the host loads: the last bytes of the buffer, right-aligned after `fill` (R432). -/
def unpadWindow (d : List Byte) (fill : Block) : Block :=
  blockOfBytes (fill.toList.take (16 - min d.length 16) ++ d.drop (d.length - min d.length 16))

/-- Byte k of the window is the buffer's, counted from the end, if the buffer reaches there. -/
theorem getElem_unpadWindow (d : List Byte) (fill : Block) (k : Fin 16) (h : 16 ≤ d.length + k.val) :
    (unpadWindow d fill)[k] = d[d.length + k.val - 16] := by
  have hfill : (fill.toList.take (16 - min d.length 16)).length = 16 - min d.length 16 := by simp
  have hindex : d.length - min d.length 16 + (k.val - (16 - min d.length 16)) = d.length + k.val - 16 := by omega
  simp only [unpadWindow, blockOfBytes, Fin.getElem_fin, Vector.getElem_ofFn]
  rw [List.getD_append_right _ _ _ _ (by omega), hfill, List.getD_eq_getElem?_getD, List.getElem?_drop, hindex,
    List.getElem?_eq_getElem (by omega), Option.getD_some]

/-- The last byte of the window is the buffer's last. -/
theorem getElem_unpadWindow_last {d : List Byte} {n : Byte} (h : d.getLast? = some n) (fill : Block) :
    (unpadWindow d fill)[15] = n := by
  obtain ⟨ds, rfl⟩ := List.getLast?_eq_some_iff.mp h
  exact (getElem_unpadWindow (ds ++ [n]) fill 15 (by simp)).trans (by simp)

/-- R371's three checks on a buffer with a last byte. -/
theorem unpadSeq_of_getLast? {d : List Byte} {n : Byte} (h : d.getLast? = some n) :
    unpadSeq d =
      if n.toNat ≤ 16 ∧ n.toNat ≤ d.length ∧ ∀ x ∈ d.drop (d.length - n.toNat), x = n then
        some (d.take (d.length - n.toNat))
      else none := by
  have hany : (d.drop (d.length - n.toNat)).any (· != n) = true ↔ ¬ ∀ x ∈ d.drop (d.length - n.toNat), x = n := by simp
  simp only [unpadSeq, h, hany, gt_iff_lt, ← Nat.not_le, ite_not, ite_and]

/-- UNPAD's checks on the window are those of R371 on the buffer (R387). -/
theorem paddingValid_unpadWindow_iff {d : List Byte} {n : Byte} (h : d.getLast? = some n) (fill : Block) :
    PaddingValid (unpadWindow d fill) (min d.length 16) ↔
      n.toNat ≤ 16 ∧ n.toNat ≤ d.length ∧ ∀ x ∈ d.drop (d.length - n.toNat), x = n := by
  have hpos : d.length ≠ 0 := fun hd => by simp [List.length_eq_zero_iff.mp hd] at h
  rw [PaddingValid, getElem_unpadWindow_last h]
  constructor
  · rintro ⟨-, h16, hmin, hall⟩
    refine ⟨h16, by omega, fun x hx => ?_⟩
    obtain ⟨i, hi, rfl⟩ := List.mem_drop_iff_getElem.mp hx
    have hindex : d.length + (16 - n.toNat + i) - 16 = d.length - n.toNat + i := by omega
    have hk := hall ⟨16 - n.toNat + i, by omega⟩ (Nat.le_add_right ..)
    rw [getElem_unpadWindow _ _ _ (by simp only; omega)] at hk
    simpa only [hindex] using hk
  · rintro ⟨h16, hlen, hall⟩
    refine ⟨by omega, h16, by omega, fun k hk => ?_⟩
    rw [getElem_unpadWindow _ _ _ (by omega)]
    exact hall _ (List.mem_drop_iff_getElem.mpr ⟨n.toNat + k.val - 16, by omega, by congr 1; omega⟩)

/-- Unpadding a buffer is UNPAD's check of the window, and the count that is its last byte (R371, R387). -/
theorem unpadSeq_eq (d : List Byte) (fill : Block) :
    unpadSeq d =
      if PaddingValid (unpadWindow d fill) (min d.length 16) then
        some (d.take (d.length - (unpadWindow d fill)[15].toNat))
      else none := by
  cases h : d.getLast? with
  | none =>
    obtain rfl := List.getLast?_eq_none_iff.mp h
    exact (if_neg fun ⟨hpos, _⟩ => hpos rfl).symm
  | some n =>
    simp only [unpadSeq_of_getLast? h, paddingValid_unpadWindow_iff h, getElem_unpadWindow_last h]

/-- The declared window length fits the operand of UNPAD. -/
theorem toNat_declaredWindow (n : Nat) : (BitVec.ofNat 8 (min n 16)).toNat = min n 16 := by
  rw [BitVec.toNat_ofNat]; omega

/-- The procedure loads the window, performs UNPAD and reads STATUS and PADINFO (R432). -/
theorem runHost_unpadBuffer {s t : State} (hs : s.resetAsserted = false) {d : List Byte} {fill : Block}
    (h : exec (.unpad (BitVec.ofNat 8 (min d.length 16)))
      (((s.writeBlock (unpadWindow d fill)).respond .done).respond .done) = .next t) (ht : t.resetAsserted = false) :
    ∃ u, runHost (unpadBufferProgram d fill) s = .next (u, [t.statusWord, t.padInfoWord]) := by
  have hwf : (Instr.unpad (BitVec.ofNat 8 (min d.length 16))).wellFormed = true :=
    decide_eq_true (by rw [toNat_declaredWindow]; exact Nat.min_le_right ..)
  have hcheck := runHost_append (runHost_ldState hs _) (runHost_issue_check hs hwf h ht)
  rw [← List.append_assoc] at hcheck
  exact ⟨_, runHost_append hcheck (runHost_rd (r := .padInfo) ht)⟩

/-- Settles O60: UNPAD's two outcomes on the window are those of unpadding the buffer. -/
theorem unpadBufferProcedure : Obligations.UnpadBufferProcedure := by
  intro s d fill hs
  have hvlen := toNat_declaredWindow d.length
  have hmax : (BitVec.ofNat 8 (min d.length 16)).toNat ≤ 16 := by rw [hvlen]; exact Nat.min_le_right ..
  have hblock : (((s.writeBlock (unpadWindow d fill)).respond .done).respond .done).block = unpadWindow d fill :=
    s.block_writeBlock _
  rw [unpadSeq_eq d fill]
  by_cases hvalid : PaddingValid (unpadWindow d fill) (min d.length 16)
  · have hexec := exec_unpad_of_valid hmax (by rwa [hblock, hvlen])
    obtain ⟨u, hrun⟩ := runHost_unpadBuffer hs hexec hs
    have hpadN : (BitVec.ofNat 5 (unpadWindow d fill)[15].toNat).toNat = (unpadWindow d fill)[15].toNat := by
      obtain ⟨-, hcount, -⟩ := hvalid
      rw [BitVec.toNat_ofNat]
      omega
    rw [hblock] at hrun
    rw [if_pos hvalid, ← hpadN]
    exact ⟨u, _, hrun, unpadBufferResult_of_ok d rfl⟩
  · obtain ⟨u, hrun⟩ := runHost_unpadBuffer hs (exec_unpad_of_not_valid hmax (by rwa [hblock, hvlen])) hs
    rw [if_neg hvalid]
    exact ⟨u, _, hrun, unpadBufferResult_of_invalidPadding d rfl⟩

end Sys2Proof.Machine
end

section
/-! PROOFS. Exceptions (60_exceptions.md): the invariant of every step, the code and ERR of every command, what a failing command
leaves unchanged, the commands that need an engine, and the interrupt line. -/

namespace Sys2Proof.Machine

/-! ## The invariant (R500, R58, R59, R600) -/

/-- The codes are 0 to 5 (R500). -/
theorem ResultCode.toNat_bits_le (code : ResultCode) : code.bits.toNat ≤ 5 := by
  cases code <;> decide

/-- A schedule shows the key it was expanded from (R53). -/
theorem scheduleKey_keyExpansion (key : Vector Word 8) : scheduleKey (keyExpansion key) = key := by
  apply Vector.ext
  intro i hi
  rw [scheduleKey, Vector.getElem_ofFn]
  exact getElem_keyExpansion_of_lt key hi

/-- UNPAD's count is the last byte of valid padding (R385). -/
theorem paddingValid_of_paddingCount_eq_some {b : Block} {vlen n : Nat} (h : paddingCount vlen b = some n) :
    PaddingValid b vlen ∧ b[15].toNat = n := by
  rw [paddingCount_eq] at h
  split_ifs at h with hvalid
  exact ⟨hvalid, Option.some.inj h⟩

/-- UNPAD finds no count in any other padding (R385). -/
theorem not_paddingValid_of_paddingCount_eq_none {b : Block} {vlen : Nat} (h : paddingCount vlen b = none) :
    ¬ PaddingValid b vlen := by
  rw [paddingCount_eq] at h
  split_ifs at h with hvalid
  exact hvalid

section EffectInvariant

variable {s u : State} {i : Instr} {code : ResultCode}

theorem Effect.err_eq (he : Effect s i code u) : u.err = s.err := by cases he <;> simp
theorem Effect.resetAsserted_eq (he : Effect s i code u) : u.resetAsserted = s.resetAsserted := by cases he <;> simp

/-- EXPAND 32 expands the key it shows; a failing EXPAND leaves no engine (R58). -/
theorem Effect.scheduleLegal (he : Effect s i code u) (h : s.ScheduleLegal) : u.ScheduleLegal := by
  cases he with
  | expand => exact fun _ => congrArg keyExpansion (scheduleKey_keyExpansion s.key).symm
  | wrongKeyLength => exact nofun
  | _ => exact h

/-- UNPAD's count is at most 16, or there is none and PADINFO is cleared (R64, R504). -/
theorem Effect.padInfoLegal (he : Effect s i code u) (h : s.PadInfoLegal) : u.PadInfoLegal := by
  cases he with
  | badPadding => exact ⟨Nat.zero_le 16, Nat.zero_le 16, fun _ => ⟨rfl, rfl⟩⟩
  | @unpad vlen n hv hn =>
    obtain ⟨⟨-, hmax, -⟩, rfl⟩ := paddingValid_of_paddingCount_eq_some hn
    refine ⟨?_, ?_, nofun⟩
    · rw [State.setPadInfo_padN, BitVec.toNat_ofNat]; omega
    · rw [State.setPadInfo_padKeep, BitVec.toNat_ofNat]; omega
  | _ => simpa [State.PadInfoLegal] using h

end EffectInvariant

section Invariant

variable {s t : State}

/-- Outside reset nothing is asked of the elements (R600). -/
theorem State.resetHeld_of_released (h : s.resetAsserted = false) : s.ResetHeld := fun h' => by simp [h] at h'

/-- The host's list is no part of the invariant (log 1). -/
theorem State.Inv.withPending (h : s.Inv) (es : List HostEvent) : (s.withPending es).Inv :=
  ⟨h.codeLegal, h.padInfoLegal, h.scheduleLegal, fun hr => congrArg (State.withPending · es) (h.resetHeld hr)⟩

/-- The response to an access is no part of the invariant (log 3). -/
theorem State.Inv.respond (h : s.Inv) (r : Response) : (s.respond r).Inv :=
  ⟨h.codeLegal, h.padInfoLegal, h.scheduleLegal, fun hr => congrArg (State.respond · r) (h.resetHeld hr)⟩

/-- Reset establishes the invariant, at either level of the input (R600). -/
theorem State.inv_applyReset (s : State) (level : Bool) : (s.applyReset level).Inv where
  codeLegal := Nat.zero_le 5
  padInfoLegal := ⟨Nat.zero_le 16, Nat.zero_le 16, fun _ => ⟨rfl, rfl⟩⟩
  scheduleLegal := nofun
  resetHeld := by rintro (rfl : level = true); rfl

/-- A command keeps the invariant (R500, R58, R59). -/
theorem State.Inv.perform (hi : s.Inv) (hs : s.resetAsserted = false) {c : Word} (h : perform c s = .next t) : t.Inv := by
  rcases perform_cases h with ⟨-, -, rfl⟩ | ⟨i, code, u, -, rfl, he⟩
  · exact ⟨ResultCode.toNat_bits_le _, hi.padInfoLegal, hi.scheduleLegal, State.resetHeld_of_released hs⟩
  · exact ⟨code.toNat_bits_le, he.padInfoLegal hi.padInfoLegal, he.scheduleLegal hi.scheduleLegal,
      State.resetHeld_of_released (he.resetAsserted_eq.trans hs)⟩

/-- A host's write to a register that holds its own value keeps the invariant (R104). -/
theorem State.Inv.writeReg (hi : s.Inv) (hs : s.resetAsserted = false) {v : Word} {r : Reg} (h : s.writeReg v r = some t) :
    t.Inv := by
  cases r with
  | cmd | padInfo | auxR | rk => cases h
  | status | cfg | key | state | auxA | auxB =>
    cases h
    exact ⟨hi.codeLegal, hi.padInfoLegal, hi.scheduleLegal, State.resetHeld_of_released hs⟩

/-- An event keeps the invariant. -/
theorem State.Inv.takeEvent (hi : s.Inv) {e : HostEvent} (h : takeEvent s e = .next t) : t.Inv := by
  rcases takeEvent_cases h with ⟨-, -, v, -, -, -, rfl⟩ | ⟨c, -, hs, hc⟩ | ⟨r, v, -, -, hs, hw⟩ | ⟨-, rfl⟩ | ⟨-, rfl⟩
  · exact hi.respond (.data v)
  · exact (hi.respond .done).perform hs hc
  · exact (hi.respond .done).writeReg hs hw
  · exact s.inv_applyReset true
  · split
    · exact s.inv_applyReset false
    · exact hi

end Invariant

/-- Settles O56: an idle step changes nothing, and every event keeps the invariant. -/
theorem stepKeepsInvariant : Obligations.StepKeepsInvariant := by
  intro s t hi h
  rcases step_cases h with ⟨-, rfl⟩ | ⟨e, es, -, he⟩
  · exact hi
  · exact (hi.withPending es).takeEvent he

/-! ## The code of a command, and ERR (R500, R502, R505) -/

/-- Code 0 is OK's alone (R500). -/
theorem ResultCode.bits_eq_zero_iff (code : ResultCode) : code.bits = 0 ↔ code = .ok := by
  cases code <;> simp [ResultCode.bits]

/-- A legal command's code: no engine first, then the command's own check (R502). -/
theorem Effect.bits_eq {s u : State} {i : Instr} {code : ResultCode} (he : Effect s i code u) (hwf : i.wellFormed = true) :
    code.bits =
      (if needsKey i = true ∧ s.kv = false then 5
       else if i.opcode = 0x01 ∧ i.arg.toNat ≠ 32 then 2
       else if i.opcode = 0x02 ∧ i.arg.toNat ≠ 16 then 3
       else if i.opcode = 0x31 ∧ ¬ PaddingValid s.block i.arg.toNat then 4
       else 0) := by
  cases he with
  | illegal h => simp [h] at hwf
  | noKey _ hn hk => exact (if_pos ⟨hn, hk⟩).symm
  | badPadding _ h =>
    have hvalid := not_paddingValid_of_paddingCount_eq_none h
    simp [needsKey, Instr.opcode, Instr.arg, ResultCode.bits, hvalid]
  | unpad _ h =>
    obtain ⟨hvalid, -⟩ := paddingValid_of_paddingCount_eq_some h
    simp [needsKey, Instr.opcode, Instr.arg, ResultCode.bits, eq_true hvalid]
  | _ => simp [*, needsKey, Instr.opcode, Instr.arg, ResultCode.bits]

/-- ERR after a command: it was set, or the code is not 0 (R505). -/
theorem perform_err {c : Word} {s t : State} (h : perform c s = .next t) : t.err = (s.err || decide (t.lastCode ≠ 0)) := by
  rcases perform_cases h with ⟨-, -, rfl⟩ | ⟨i, code, u, -, rfl, he⟩
  · rfl
  · simp only [State.complete_err, State.complete_lastCode, he.err_eq, ne_eq, code.bits_eq_zero_iff]

/-- Settles O33: an illegal word by R155; a legal one has a code by its command's effect. -/
theorem resultCodeByPriority : Obligations.ResultCodeByPriority := by
  intro c s
  by_cases hc : IllegalWord c
  · exact ⟨_, illegalWordsComplete c s hc, (if_pos hc).symm, perform_err (illegalWordsComplete c s hc)⟩
  · obtain ⟨i, hd⟩ := decode_of_not_illegalWord hc
    obtain ⟨hwf, rfl⟩ := decode_sound hd
    obtain ⟨hopc, harg, -⟩ : Laws.Fields.Statement i := Laws.Fields.fields_encodeFields _ _
    obtain ⟨code, u, hexec, he⟩ := exec_effect i s
    have hperform := (perform_of_decode hd s).trans hexec
    refine ⟨_, hperform, ?_, perform_err hperform⟩
    simpa only [State.complete_lastCode, if_neg hc, hopc, harg, needsKey_iff] using he.bits_eq hwf

/-- Settles O34: the five failing effects write at most KV, PV and PADINFO. -/
theorem failingCommandWritesNoData : Obligations.FailingCommandWritesNoData := by
  intro c s t h hne
  rcases perform_cases h with ⟨-, -, rfl⟩ | ⟨i, code, u, -, rfl, he⟩
  · simp [State.complete, ResultCode.bits]
  · cases he with
    | illegal | noKey | wrongKeyLength | wrongBlockLength | badPadding =>
      simp [State.complete, ResultCode.bits, State.dropEngine, State.clearPadInfo]
    | _ => exact absurd rfl hne

/-! ## The commands that need an engine (R501) -/

/-- EXPAND overwrites KV, whatever it was (R262, R504). -/
theorem exec_expand_withKv (len : Byte) (s : State) (b : Bool) : exec (.expand len) { s with kv := b } = exec (.expand len) s :=
  rfl

/-- No other command that does not read the schedule depends on an engine being there. -/
theorem exec_dropEngine {i : Instr} {s t : State} (hn : ¬ needsKey i = true) (hi : i.opcode ≠ 0x01) (h : exec i s = .next t) :
    exec i s.dropEngine = .next t.dropEngine := by
  refine exec_independent (f := State.dropEngine) ?_ ?_ h <;> constructor
  case refine_1.loadSchedule => exact fun h => absurd h hi
  case refine_2.kv => exact fun h => absurd h hn
  all_goals intros; rfl

/-- States alike but for KV. -/
theorem State.eq_withKv_of_dropEngine_eq {t u : State} (h : u.dropEngine = t.dropEngine) : u = { t with kv := u.kv } :=
  congrArg (fun x : State => { x with kv := u.kv }) h

/-- Settles O35: EXPAND overwrites KV; the other commands agree once KV is dropped, and keep it. -/
theorem keyNotLoaded : Obligations.KeyNotLoaded := by
  refine ⟨fun i s hwf hn hk => exec_of_no_engine hwf hn hk, fun i s t b hn h => ?_⟩
  by_cases hexp : ∃ len, i = .expand len
  · obtain ⟨len, rfl⟩ := hexp
    exact ⟨t, (exec_expand_withKv len s b).trans h, rfl, .inr rfl⟩
  · obtain ⟨code, u, hu, he⟩ := exec_effect i { s with kv := b }
    have hdrop {s t : State} (h : exec i s = .next t) : exec i s.dropEngine = .next t.dropEngine :=
      exec_dropEngine (by simp [hn]) (mt eq_expand_of_opcode hexp) h
    have hsame : (u.complete code).dropEngine = t.dropEngine := Host.Outcome.next.inj ((hdrop hu).symm.trans (hdrop (s := s) h))
    refine ⟨_, hu, State.eq_withKv_of_dropEngine_eq hsame, .inl (by_contra fun hkv => hexp ?_)⟩
    obtain ⟨len, hi, -⟩ := he.expand_of_kv_ne hkv
    exact ⟨len, hi⟩

/-! ## ERR and the interrupt line (R505, R507, R510) -/

/-- A host's write clears ERR only at STATUS, with bit 2 set (R62). -/
theorem State.writeReg_clears_err {s t : State} {v : Word} {r : Reg} (h : s.writeReg v r = some t) (hs : s.err = true)
    (ht : t.err = false) : r = .status ∧ v.getLsbD 2 = true := by
  cases r with
  | cmd | padInfo | auxR | rk => cases h
  | status => cases h; simpa [hs] using ht
  | cfg | key | state | auxA | auxB => cases h; simp [hs] at ht

/-- Settles O41: a command keeps ERR, and so does a read and every write but that one. -/
theorem errClearedOnlyByHost : Obligations.ErrClearedOnlyByHost := by
  intro s t h hs ht
  rcases step_cases h with ⟨-, rfl⟩ | ⟨e, es, hp, he⟩
  · simp [hs] at ht
  · rcases takeEvent_cases he with ⟨a, size, v, -, -, -, rfl⟩ | ⟨c, -, -, hc⟩ | ⟨r, v, -, rfl, -, hw⟩ | ⟨rfl, -⟩ | ⟨rfl, -⟩
    · simp [hs] at ht
    · simp [perform_err hc, hs] at ht
    · obtain ⟨rfl, hv⟩ := State.writeReg_clears_err hw hs ht
      exact .inl ⟨v, es, hp, hv⟩
    · exact .inr ⟨es, .inl hp⟩
    · exact .inr ⟨es, .inr hp⟩

/-- A write to a register that stores a word does not move the interrupt line (R510). -/
theorem memWrite_storesWord_irq {r : Reg} (hr : r.storesWord = true) (v : Word) (s : State) :
    ∃ t, memWrite r.offset 4 v s = .next t ∧ t.irq = s.irq := by
  cases r with
  | key | state | auxA | auxB => exact ⟨_, memWrite_of_writeReg nofun rfl, rfl⟩
  | _ => cases hr

/-- Settles O50: irq is ERR and ERRIE; a command keeps ERRIE and ends with ERR as R505 says. -/
theorem irqLevel : Obligations.IrqLevel := by
  intro s
  refine ⟨fun c t h => ?_, fun v => ⟨_, memWrite_of_writeReg (r := .cfg) nofun rfl, rfl⟩,
    fun v => ⟨_, memWrite_of_writeReg (r := .status) nofun rfl, ?_⟩, fun a v hlo hhi halign => ?_, fun level => rfl,
    fun a size t h => ?_⟩
  · obtain ⟨-, -, -, herrie, -⟩ := registersWrittenByCommands c s t h
    rw [State.irq, perform_err h, herrie, Bool.and_comm]
  · exact Bool.and_right_comm ..
  · obtain ⟨r, hd⟩ : ∃ r, decodeAccess a 4 = some r := by
      refine Option.ne_none_iff_exists'.mp fun hnone => ?_
      rw [decodeAccess_eq_none] at hnone
      omega
    obtain ⟨-, rfl⟩ := decodeAccess_eq_some hd
    exact memWrite_storesWord_irq (r.storesWord_iff_offset.mpr ⟨hlo, hhi⟩) v s
  · rw [performAccess] at h
    split at h
    · cases h; rfl
    · cases h

end Sys2Proof.Machine
end

section
/-! PROOFS. Reset and its consequences (70_reset_and_hazards.md R600 to R602): the values reset leaves, what the reset input does
in any state, and the block without an engine until an `EXPAND 32`. -/

namespace Sys2Proof.Machine

/-! ## Reset (R600, R601) -/

/-- Settles O51: reset clears every element, and with them the words read of STATUS, CFG and PADINFO and the interrupt line. -/
theorem resetValues : Obligations.ResetValues :=
  ⟨fun j => Vector.getElem_replicate j.isLt, fun j => Vector.getElem_replicate j.isLt,
    fun i => Vector.getElem_replicate i.isLt, rfl, rfl, rfl, by decide, by decide, by decide, rfl⟩

/-- Releasing an asserted reset resets (R600). -/
theorem takeEvent_releaseReset {s : State} (hs : s.resetAsserted = true) :
    takeEvent s .releaseReset = .next (s.applyReset false) := by
  rw [takeEvent, if_pos hs]

/-- An access while reset is asserted is refused by name (R601, log 4). -/
theorem takeEvent_access_of_resetAsserted {s : State} (hs : s.resetAsserted = true) (a : BusAccess) :
    takeEvent s (.access a) = .refused (.accessDuringReset a) := by
  rw [takeEvent, if_pos hs]

/-- Settles O52: the step takes the host's event, and reset keeps only the host's list. -/
theorem resetInput : Obligations.ResetInput := by
  intro s es
  refine ⟨fun hp => ?_, fun hp hs => ?_, fun a hp hs => ?_⟩
  · calc step s = takeEvent (s.withPending es) .assertReset := step_of_pending hp
      _ = .next ((s.withPending es).applyReset true) := rfl
  · calc step s = takeEvent (s.withPending es) .releaseReset := step_of_pending hp
      _ = .next ((s.withPending es).applyReset false) := takeEvent_releaseReset hs
  · exact (step_of_pending hp).trans (takeEvent_access_of_resetAsserted (s := s.withPending es) hs a)

/-- Settles O55: reset establishes the invariant from any state, the reset state included. -/
theorem resetMeetsInvariant : Obligations.ResetMeetsInvariant := State.reset.inv_applyReset false

/-! ## Without an engine (R602) -/

/-- There is no engine and the schedule holds its reset value (R600, R602). -/
structure State.NoEngine (s : State) : Prop where
  kv : s.kv = false
  w : s.w = Vector.replicate 60 0

section NoEngine

variable {s t u : State}

/-- Only `EXPAND 32` makes an engine (R262, R602). -/
theorem Effect.noEngine_or_expand {i : Instr} {code : ResultCode} (he : Effect s i code u) (h : s.NoEngine) :
    u.NoEngine ∨ i = .expand 32 := by
  cases he with
  | @expand len hlen => exact .inr (by rw [show len = 32 by bv_omega])
  | wrongKeyLength => exact .inl ⟨rfl, h.w⟩
  | _ => exact .inl ⟨h.kv, h.w⟩

/-- A word that is not `EXPAND 32` makes no engine; an illegal one writes no more than LASTCODE and ERR (R155, R602). -/
theorem State.NoEngine.perform (h : s.NoEngine) {c : Word} (hc : perform c s = .next t) :
    t.NoEngine ∨ c = 0x00002001 := by
  rcases perform_cases hc with ⟨-, -, rfl⟩ | ⟨i, code, u, hd, rfl, he⟩
  · exact .inl ⟨h.kv, h.w⟩
  · rcases he.noEngine_or_expand h with hu | rfl
    · exact .inl ⟨hu.kv, hu.w⟩
    · exact .inr (decode_sound hd).2

/-- Reset leaves no engine (R600). -/
theorem State.noEngine_applyReset (s : State) (level : Bool) : (s.applyReset level).NoEngine := ⟨rfl, rfl⟩

/-- The only event that makes an engine is a write of `EXPAND 32` to CMD (R602). -/
theorem State.NoEngine.takeEvent (h : s.NoEngine) {e : HostEvent} (he : takeEvent s e = .next t) :
    t.NoEngine ∨ e = .access (.write 0x000 4 0x00002001) := by
  rcases takeEvent_cases he with ⟨-, -, v, -, -, -, rfl⟩ | ⟨c, rfl, -, hc⟩ | ⟨r, v, -, -, -, hw⟩ | ⟨-, rfl⟩ | ⟨-, rfl⟩
  · exact .inl ⟨h.kv, h.w⟩
  · have hdone : (s.respond .done).NoEngine := ⟨h.kv, h.w⟩
    exact (hdone.perform hc).imp_right fun hexp => by rw [hexp]
  · have hsame := State.writeReg_sameResults hw
    exact .inl ⟨hsame.kv.trans h.kv, hsame.w.trans h.w⟩
  · exact .inl (s.noEngine_applyReset true)
  · split
    · exact .inl (s.noEngine_applyReset false)
    · exact .inl h

/-- Every address of the RK window reads 0 (R602). -/
theorem State.NoEngine.memRead_rk (h : s.NoEngine) (i : Fin 60) : memRead (Reg.rk i).offset 4 s = some 0 := by
  rw [memRead_offset, State.readReg, h.w]
  exact congrArg some (Vector.getElem_replicate i.isLt)

end NoEngine

/-- Settles O42: an idle step changes nothing, and no event but a write of `EXPAND 32` makes an engine. -/
theorem noEngineUntilExpand : Obligations.NoEngineUntilExpand := by
  intro s t hkv hw h
  have hs : s.NoEngine := ⟨hkv, hw⟩
  have hstep : t.NoEngine ∨ ∃ es, s.pending = .access (.write 0x000 4 0x00002001) :: es := by
    rcases step_cases h with ⟨-, rfl⟩ | ⟨e, es, hp, he⟩
    · exact .inl hs
    · have hrest : (s.withPending es).NoEngine := ⟨hkv, hw⟩
      exact (hrest.takeEvent he).imp_right fun hexp => ⟨es, by rw [hp, hexp]⟩
  exact hstep.imp_left fun ht => ⟨ht.kv, ht.w, ht.memRead_rk⟩

end Sys2Proof.Machine
end
